-- ==== Sys2Proof/Word.lean ====
section
/-! DEFINITION. The word types of the block: the byte, the addressable unit of every byte space
(20_memory.md R51), and the two wider field widths (30_encoding.md R80, R88). -/

namespace Sys2Proof

/-- One stream element: an unsigned value 0 to 255 (00_scope.md R10 "byte width", R11). -/
abbrev Byte := BitVec 8

/-- A 16-bit field: COMMAND and VLEN (30_encoding.md R83, R91). -/
abbrev Half := BitVec 16

/-- A 32-bit field: the data-unit header word and the Bitmap32 value (30_encoding.md R88, R93). -/
abbrev Word := BitVec 32

end Sys2Proof
end

