-- ==== Sys2Proof/Config.lean ====
section
/-! DEFINITION. The build-time parameters of the block (00_scope.md R10; 92_eei_decisions.md, "Open
parameters in one place"). Their default values stand in Machine/Params.lean. UTF8_FILTER, the one
parameter that is a function, is fixed to the function of R138 (assumption log 7). -/

namespace Sys2Proof

/-- CKSUM_START, the frame offset of the first byte the checksum covers: 0 or 2
(92_eei_decisions.md D4; 90_conflicts.md C1). -/
inductive CksumStart where
  /-- 0: the two marker bytes are covered (the losing reading of C1, kept as a parameter value). -/
  | markerIncluded
  /-- 2: the marker is excluded (30_encoding.md R86). -/
  | markerExcluded
deriving DecidableEq, Repr

/-- The parameters of one built block. No operation writes them (10_state.md R33, R38). -/
structure Config where
  /-- CKSUM_START (D4). -/
  cksumStart : CksumStart
  /-- BUF_CAP (D5): `none` is "unbounded". -/
  bufCap : Option Nat
  /-- CHUNK_MAX (D6): `none` is "unbounded". -/
  chunkMax : Option Nat
deriving DecidableEq, Repr

end Sys2Proof
end

