-- ==== Sys2Proof/Machine/Params.lean ====
section
/-! DEFINITION. The constants of 00_scope.md R10 and the default values of the parameters. -/

namespace Sys2Proof.Machine

/-- First byte of MARKER (R10; 30_encoding.md R81). -/
def marker0 : Byte := 0x55

/-- Second byte of MARKER. -/
def marker1 : Byte := 0xAA

/-- MARKER, the two-byte sequence 55 AA (R10, R81). -/
def marker : List Byte := [marker0, marker1]

/-- MARKER_LEN (R10). -/
def markerLen : Nat := 2

/-- HDR_LEN, the frame offset of the payload (R10). -/
def hdrLen : Nat := 6

/-- MIN_FRAME, the shortest frame the Packet Decoder parses (R10; 42_packet_decoder.md R152). -/
def minFrame : Nat := 7

/-- DU_HDR_LEN, the four header bytes of a data unit (R10; 41_data_unit_decoder.md R122). -/
def duHdrLen : Nat := 4

/-- The frame offset CKSUM_START stands for (R10, D4). -/
def cksumOffset : CksumStart → Nat
  | .markerIncluded => 0
  | .markerExcluded => 2

/-- The spec's values of the open parameters: CKSUM_START 2, BUF_CAP and CHUNK_MAX unbounded
(92_eei_decisions.md, "Open parameters in one place"; assumption logs 5 and 6). -/
def defaultConfig : Config :=
  { cksumStart := .markerExcluded, bufCap := none, chunkMax := none }

end Sys2Proof.Machine
end

