-- ==== Sys2Proof/Syntax.lean ====
section
/-! DEFINITION. The instructions of the block: one constructor per row of spec/opcode_table.json
(30_encoding.md R98), and the requests by which they reach it. -/

namespace Sys2Proof

/-- The fourteen rows of the opcode table, in its order. The wire formats carry whole byte sequences, so
an operand is a byte sequence (00_scope.md R11, R18). -/
inductive Instr where
  /-- FRAME: `decode_packet` of one candidate frame, marker included (42_packet_decoder.md R150). -/
  | frame (bytes : List Byte)
  /-- DU.RAW, TYPE 0 (41_data_unit_decoder.md R127). -/
  | duRaw (id : Byte) (vlen : Half) (value : List Byte)
  /-- DU.BOOL, TYPE 1 (R128). -/
  | duBool (id : Byte) (vlen : Half) (value : List Byte)
  /-- DU.INT32, TYPE 2 (R129). -/
  | duInt32 (id : Byte) (vlen : Half) (value : List Byte)
  /-- DU.STRING, TYPE 3 (R130). -/
  | duString (id : Byte) (vlen : Half) (value : List Byte)
  /-- DU.ENUM8, TYPE 4 (R131). -/
  | duEnum8 (id : Byte) (vlen : Half) (value : List Byte)
  /-- DU.BITMAP32, TYPE 5 (R132). -/
  | duBitmap32 (id : Byte) (vlen : Half) (value : List Byte)
  /-- DU.UNKNOWN, TYPE 6 to 255: the row leaves the TYPE byte open (R133). -/
  | duUnknown (id tag : Byte) (vlen : Half) (value : List Byte)
  /-- DU.PARSE: the record loop over a payload (R121). -/
  | duParse (payload : List Byte)
  /-- CHECKSUM of a byte sequence (40_checksum.md R110). -/
  | checksum (bytes : List Byte)
  /-- FIND_MARKER in a byte sequence (43_frame_extractor.md R171). -/
  | findMarker (bytes : List Byte)
  /-- OP.RESET (70_reset_and_hazards.md R240). -/
  | opReset
  /-- OP.PUSH with its chunk (43_frame_extractor.md R173). -/
  | opPush (chunk : List Byte)
  /-- OP.DRAIN (43_frame_extractor.md R174). -/
  | opDrain
deriving DecidableEq, Repr

/-- One request of the host, undecoded: what the block fetches its next instruction from (assumption
log 2). The constructors but the first are the stand-alone contracts of the four components
(00_scope.md R2, R13), each with the byte sequence it is called on. -/
inductive Request where
  /-- A host operation: its 2-bit code and the chunk an OP.PUSH carries (30_encoding.md R97). -/
  | hostOp (code : BitVec 2) (chunk : List Byte)
  /-- The bytes of one candidate frame for the Packet Decoder (R150). -/
  | frame (bytes : List Byte)
  /-- The bytes of one data unit for the Data-Unit Decoder (30_encoding.md R88). -/
  | unit (bytes : List Byte)
  /-- The bytes of a whole payload for the Data-Unit Decoder (R120). -/
  | payload (bytes : List Byte)
  /-- A byte sequence for the Checksum Unit (R110). -/
  | checksum (bytes : List Byte)
  /-- A byte sequence for the marker search (R171). -/
  | search (bytes : List Byte)
deriving DecidableEq, Repr

/-- Why a request asks for no instruction. -/
inductive Reject where
  /-- Host operation code 11 (30_encoding.md R97: "a model refuses it"). -/
  | reservedOpCode
deriving DecidableEq, Repr

/-- Why a byte sequence does not begin with a complete data unit. -/
inductive UnitReject where
  /-- Fewer than four bytes where the header should be (R122). -/
  | headerTruncated
  /-- Fewer bytes after the header than VLEN declares (R124). -/
  | valueTruncated
deriving DecidableEq, Repr

end Sys2Proof
end

