-- ==== Sys2Proof/WellFormed.lean ====
section
/-! DEFINITION. Which terms of Instr an encoding of the spec can spell. -/

namespace Sys2Proof

/-- The value of a data unit has the length its VLEN declares (10_state.md R29; 30_encoding.md R88). -/
def valueFits (vlen : Half) (value : List Byte) : Bool :=
  value.length == vlen.toNat

/-- A frame begins with the marker (30_encoding.md R80; 42_packet_decoder.md R150: "including the leading
marker"), a data unit's value has its declared length, and DU.UNKNOWN's TYPE is 6 to 255 (R90). -/
def wellFormed : Instr → Bool
  | .frame bytes => bytes.take Machine.markerLen == Machine.marker
  | .duRaw _ vlen value => valueFits vlen value
  | .duBool _ vlen value => valueFits vlen value
  | .duInt32 _ vlen value => valueFits vlen value
  | .duString _ vlen value => valueFits vlen value
  | .duEnum8 _ vlen value => valueFits vlen value
  | .duBitmap32 _ vlen value => valueFits vlen value
  | .duUnknown _ tag vlen value => decide (6 ≤ tag.toNat) && valueFits vlen value
  | .duParse _ => true
  | .checksum _ => true
  | .findMarker _ => true
  | .opReset => true
  | .opPush _ => true
  | .opDrain => true

end Sys2Proof
end

