-- ==== Sys2Proof/Decode.lean ====
section
/-! DEFINITION. Byte order (20_memory.md R52), the decoder from requests to instructions
(30_encoding.md R88 to R98), then the encoder, written from the same tables. -/

namespace Sys2Proof

/-- `be16`: the byte at the lower offset is the more significant (00_scope.md R12). -/
def be16 (hi lo : Byte) : Half :=
  BitVec.ofNat 16 (hi.toNat * 256 + lo.toNat)

/-- `be32u` (00_scope.md R12). -/
def be32u (a b c d : Byte) : Word :=
  BitVec.ofNat 32 (a.toNat * 2 ^ 24 + b.toNat * 2 ^ 16 + c.toNat * 2 ^ 8 + d.toNat)

/-- `be32s`, the two's complement reading of `be32u` (00_scope.md R12; 92_eei_decisions.md D10;
assumption log 12). -/
def be32s (a b c d : Byte) : Int :=
  if (be32u a b c d).toNat < 2 ^ 31 then ((be32u a b c d).toNat : Int)
  else ((be32u a b c d).toNat : Int) - 2 ^ 32

/-- The more significant byte of a 16-bit field. -/
def hiByte (v : Half) : Byte := BitVec.ofNat 8 (v.toNat / 256)

/-- The less significant byte of a 16-bit field. -/
def loByte (v : Half) : Byte := BitVec.ofNat 8 v.toNat

/-- The instruction a TYPE byte selects: the total map of 30_encoding.md R90. TYPE alone selects (R98). -/
def unitInstr (id tag : Byte) (vlen : Half) (value : List Byte) : Instr :=
  if tag = 0 then .duRaw id vlen value
  else if tag = 1 then .duBool id vlen value
  else if tag = 2 then .duInt32 id vlen value
  else if tag = 3 then .duString id vlen value
  else if tag = 4 then .duEnum8 id vlen value
  else if tag = 5 then .duBitmap32 id vlen value
  else .duUnknown id tag vlen value

/-- The data unit at the head of a byte sequence, with the bytes that follow it (30_encoding.md R88, R92). -/
def decodeUnit : List Byte → Except UnitReject (Instr × List Byte)
  | id :: tag :: hi :: lo :: rest =>
    if rest.length < (be16 hi lo).toNat then .error .valueTruncated
    else .ok (unitInstr id tag (be16 hi lo) (rest.take (be16 hi lo).toNat), rest.drop (be16 hi lo).toNat)
  | _ => .error .headerTruncated

/-- The host operation a 2-bit code stands for (30_encoding.md R97). OP.RESET and OP.DRAIN take no
operand (assumption log 10). -/
def decodeHostOp (code : BitVec 2) (chunk : List Byte) : Except Reject Instr :=
  match code.toNat with
  | 0 => .ok .opReset
  | 1 => .ok (.opPush chunk)
  | 2 => .ok .opDrain
  | _ => .error .reservedOpCode

/-- The instruction a request asks for. Bytes handed over as one data unit that are not exactly one
complete data unit are a payload all the same, which the record loop reports on (41_data_unit_decoder.md
R122, R124; assumption log 11). `decode_packet` does not test the marker (42_packet_decoder.md R153), so
every byte sequence handed to it is a FRAME operand (assumption log 13). -/
def decode : Request → Except Reject Instr
  | .hostOp code chunk => decodeHostOp code chunk
  | .frame bytes => .ok (.frame bytes)
  | .unit bytes =>
    match decodeUnit bytes with
    | .ok (i, []) => .ok i
    | _ => .ok (.duParse bytes)
  | .payload bytes => .ok (.duParse bytes)
  | .checksum bytes => .ok (.checksum bytes)
  | .search bytes => .ok (.findMarker bytes)

/-- The bytes of a data unit (30_encoding.md R88). -/
def unitBytes (id tag : Byte) (vlen : Half) (value : List Byte) : List Byte :=
  id :: tag :: hiByte vlen :: loByte vlen :: value

/-- The request that spells an instruction. The block itself builds nothing (00_scope.md R6). -/
def encode : Instr → Request
  | .frame bytes => .frame bytes
  | .duRaw id vlen value => .unit (unitBytes id 0 vlen value)
  | .duBool id vlen value => .unit (unitBytes id 1 vlen value)
  | .duInt32 id vlen value => .unit (unitBytes id 2 vlen value)
  | .duString id vlen value => .unit (unitBytes id 3 vlen value)
  | .duEnum8 id vlen value => .unit (unitBytes id 4 vlen value)
  | .duBitmap32 id vlen value => .unit (unitBytes id 5 vlen value)
  | .duUnknown id tag vlen value => .unit (unitBytes id tag vlen value)
  | .duParse payload => .payload payload
  | .checksum bytes => .checksum bytes
  | .findMarker bytes => .search bytes
  | .opReset => .hostOp 0 []
  | .opPush chunk => .hostOp 1 chunk
  | .opDrain => .hostOp 2 []

/-- The bytes before a frame's checksum byte: MARKER, VERSION, COMMAND, LEN, PAYLOAD (30_encoding.md R80). -/
def frameHead (ver : Byte) (cmd : Half) (payload : List Byte) : List Byte :=
  Machine.marker ++ ver :: hiByte cmd :: loByte cmd :: BitVec.ofNat 8 payload.length :: payload

/-- The request that an instruction's table bits stand for, its operand bytes above them zero: up to 8 bits
a host operation code (its low two bits, mask 0x3, and an empty chunk), up to 16 the first two bytes of a
frame, up to 32 a data-unit header word, most significant byte first, and VLEN zero bytes. The row
FIND_MARKER has the pattern of FRAME and no encoding of its own (30_encoding.md R98; assumption log 9). -/
def requestOfWord (nbits w : Nat) : Option Request :=
  if nbits = 0 then none
  else if nbits ≤ 8 then some (.hostOp (BitVec.ofNat 2 w) [])
  else if nbits ≤ 16 then
    some (.frame (BitVec.ofNat 8 (w / 256) :: BitVec.ofNat 8 w :: List.replicate 5 0))
  else if nbits ≤ 32 then
    some (.unit (BitVec.ofNat 8 (w / 2 ^ 24) :: BitVec.ofNat 8 (w / 2 ^ 16) :: BitVec.ofNat 8 (w / 256)
      :: BitVec.ofNat 8 w :: List.replicate (w % 65536) 0))
  else none

/-- The instruction the decoder reads from an opcode-table word. -/
def decodeTableWord (nbits w : Nat) : Option Instr :=
  match requestOfWord nbits w with
  | none => none
  | some r =>
    match decode r with
    | .ok i => some i
    | .error _ => none

end Sys2Proof
end

