-- ==== Sys2Proof/Machine/State.lean ====
section
/-! DEFINITION. The block's records (10_state.md R25 to R31), its complete state (R39), and the state after
reset (R37). State is plain data. -/

namespace Sys2Proof.Machine

/-- The eight error kinds of 60_exceptions.md R201. -/
inductive ErrKind where
  | frameTooShort
  /-- Reserved: no rule raises it (60_exceptions.md R203; 90_conflicts.md C5). -/
  | headerUnparsable
  | payloadLengthMismatch
  | checksumMismatch
  | dataUnitHeaderTruncated
  | dataUnitValueTruncated
  | dataUnitTypeLengthMismatch
  | dataUnitUnknownType
deriving DecidableEq, Repr

/-- A DecodeError with the fields 60_exceptions.md R204 gives its kind. The two per-unit kinds live in
`Value`, inside a DataUnit. -/
inductive DecodeError where
  | frameTooShort (raw : List Byte)
  | headerUnparsable (raw : List Byte)
  | payloadLengthMismatch (raw : List Byte)
  | checksumMismatch (ckCalc ckRx : Byte) (raw : List Byte)
  | dataUnitHeaderTruncated (raw : List Byte)
  | dataUnitValueTruncated (raw : List Byte)
deriving DecidableEq, Repr

/-- The value of a DataUnit (10_state.md R30). -/
inductive Value where
  | rawV (bytes : List Byte)
  | boolV (b : Bool)
  | int32V (i : Int)
  | strV (bytes : List Byte)
  | enum8V (n : Byte)
  | bitmap32V (n : Word)
  /-- Kind DataUnitTypeLengthMismatch, with the expected width (92_eei_decisions.md D24). -/
  | errTypeLength (expected : Nat)
  /-- Kind DataUnitUnknownType. -/
  | errUnknownType
deriving DecidableEq, Repr

/-- One entry of a packet's payload (10_state.md R28). -/
structure DataUnit where
  id : Byte
  tag : Byte
  vlen : Half
  value : Value
  raw : List Byte
deriving DecidableEq, Repr

/-- DataUnit-or-DecodeError (10_state.md R31). -/
inductive UnitResult where
  | unit (u : DataUnit)
  | err (e : DecodeError)
deriving DecidableEq, Repr

/-- A decoded frame (10_state.md R25). -/
structure Packet where
  version : Byte
  command : Half
  length : Byte
  payload : List Byte
  checksum : Byte
  units : List UnitResult
deriving DecidableEq, Repr

/-- Packet-or-DecodeError, what `decode_packet` returns (42_packet_decoder.md R150). -/
inductive PacketResult where
  | packet (p : Packet)
  | err (e : DecodeError)
deriving DecidableEq, Repr

/-- An element of EVQ (10_state.md R34). -/
inductive Event where
  | orphan (bytes : List Byte)
  | packet (p : Packet)
  | pktError (e : DecodeError)
deriving DecidableEq, Repr

/-- What the last stand-alone component call returned to its caller (00_scope.md R13; assumption log 3). -/
inductive Ret where
  | nothing
  /-- CHECKSUM. -/
  | byte (b : Byte)
  /-- FIND_MARKER: an index, or `none` for NONE. -/
  | index (i : Option Nat)
  /-- DU.PARSE and the seven data-unit cases. -/
  | units (us : List UnitResult)
  /-- FRAME. -/
  | result (r : PacketResult)
deriving DecidableEq, Repr

/-- The two states of the marker detector MD (10_state.md R35). -/
inductive MdState where
  | idle
  | got55
deriving DecidableEq, Repr

/-- Working registers of the Frame Extractor (10_state.md R23). In this and the next two structures `none`
is the spec's own "holds no value" (R37; 93_implementation_defined.md U13; assumption log 4); an index
register that holds NONE is `some none`. -/
structure FeRegs where
  m : Option (Option Nat) := none
  n : Option (Option Nat) := none
  frame : Option (List Byte) := none
deriving DecidableEq, Repr

/-- Working registers of the Packet Decoder (10_state.md R23, R39). -/
structure PdRegs where
  ver : Option Byte := none
  cmd : Option Half := none
  len : Option Byte := none
  total : Option (BitVec 9) := none
  pay : Option (List Byte) := none
  ckRx : Option Byte := none
  ckCalc : Option Byte := none
deriving DecidableEq, Repr

/-- Working registers of the Data-Unit Decoder (10_state.md R23, R39). CUR is unbounded for the stand-alone
contract (R39). -/
structure DuRegs where
  cur : Option Nat := none
  id : Option Byte := none
  tag : Option Byte := none
  vlen : Option Half := none
  val : Option (List Byte) := none
  out : Option (List UnitResult) := none
deriving DecidableEq, Repr

/-- The complete state of the block (10_state.md R39), its parameters, and two fields of the model's own:
`ret` (assumption log 3) and `pending` (assumption log 2). -/
structure State where
  /-- The build-time parameters; no operation writes them (R38). -/
  cfg : Config
  /-- BUF, the accumulation buffer, oldest byte first (R20). -/
  buf : List Byte
  /-- EVQ, the output event queue, oldest event first (R34). -/
  evq : List Event
  /-- M, N and FRAME. -/
  fe : FeRegs
  /-- VER, CMD, LEN, TOTAL, PAY, CK_RX and CK_CALC. -/
  pd : PdRegs
  /-- CUR, ID, TYPE, VLEN, VAL and OUT. -/
  du : DuRegs
  /-- MD, the marker detector; it holds a value only during a search (R35). -/
  md : Option MdState
  /-- The model's own: what the last stand-alone call returned. -/
  ret : Ret
  /-- The model's own: the requests the host has issued and the block has not performed. -/
  pending : List Request
deriving DecidableEq, Repr

/-- What would stop the block. The spec gives it no fault (60_exceptions.md R200): each of these marks
something the spec says would be one and that no rule does, and none is ever reached. -/
inductive Fault where
  /-- A working register was read before the same call had written it (93_implementation_defined.md U13:
  "would be a fault, and no rule does it"). Raised by `readReg`. Safe: it stops. -/
  | registerHoldsNoValue
  /-- An indexed read fell outside its sequence (20_memory.md R57). Raised by `byteAt` and `slice`. Safe: it stops. -/
  | indexOutOfRange
  /-- DRAIN_STEP ran while BUF held no marker (43_frame_extractor.md R174, its precondition). Raised by
  `markerIndex`. Safe: it stops. -/
  | noMarker
deriving DecidableEq, Repr

/-- What the block gives no step to. -/
inductive Refusal where
  /-- An instruction without a meaning in this model; no arm answers so. Safe. -/
  | notModelled (mnemonic : String)
  /-- Host operation code 11 (30_encoding.md R97; 93 U11). Raised by `step`. Safe. -/
  | reservedOpCode
  /-- An OP.PUSH that would make BUF longer than a finite BUF_CAP (10_state.md R22; 93 U5). Raised by
  `execOpPush`. Safe. -/
  | bufCapExceeded
  /-- An OP.PUSH whose chunk is longer than a finite CHUNK_MAX (43_frame_extractor.md R173; assumption
  log 6). Raised by `execOpPush`. Safe. -/
  | chunkTooLong
  /-- An OP.PUSH while a drain is in progress (20_memory.md R64; 93 U6; assumption log 8). Raised by
  `execOpPush`. Safe. -/
  | pushDuringDrain
deriving DecidableEq, Repr

/-- The block right after reset or power-up: BUF and EVQ empty, no working register holds a value (10_state.md
R37; 70_reset_and_hazards.md R240), the parameters at the spec's values. No request has been issued yet and no
call has returned (assumption logs 2 and 15). -/
def State.reset : State :=
  { cfg := defaultConfig
    buf := []
    evq := []
    fe := {}
    pd := {}
    du := {}
    md := none
    ret := .nothing
    pending := [] }

end Sys2Proof.Machine
end

