-- ==== Sys2Proof/Machine/Flags.lean ====
section
/-! DEFINITION. The block has no flags or condition codes (10_state.md R33). This file holds the conditions its
steps test, and the numeric codes of its outcomes. -/

namespace Sys2Proof.Machine

/-- Step 1 of `decode_packet`: the frame is shorter than MIN_FRAME (42_packet_decoder.md R152). -/
def frameTooShort (frame : List Byte) : Bool :=
  decide (frame.length < minFrame)

/-- Step 3 of `decode_packet`: the frame is shorter than TOTAL (R154). The test is `<`: a longer frame passes. -/
def belowTotal (frame : List Byte) (total : BitVec 9) : Bool :=
  decide (frame.length < total.toNat)

/-- Step 6 of `decode_packet`: the calculated and the received checksum differ (R157). -/
def checksumDiffers (ckCalc ckRx : Byte) : Bool :=
  ckCalc != ckRx

/-- The loop test of DU.PARSE (41_data_unit_decoder.md R121). -/
def moreToParse (payload : List Byte) (cur : Nat) : Bool :=
  decide (cur < payload.length)

/-- Step 1 of DU.PARSE: fewer than four bytes remain (R122). -/
def headerTruncated (payload : List Byte) (cur : Nat) : Bool :=
  decide (payload.length - cur < duHdrLen)

/-- Step 3 of DU.PARSE: fewer than VLEN bytes remain, CUR already past the header (R124). -/
def valueTruncated (payload : List Byte) (cur : Nat) (vlen : Half) : Bool :=
  decide (payload.length - cur < vlen.toNat)

/-- An OP.DRAIN is in progress: the Frame Extractor's working registers hold values (20_memory.md R64;
assumption log 8). -/
def drainInProgress (s : State) : Bool :=
  s.fe != {}

/-- A length is within a parameter that may be unbounded (00_scope.md R10, BUF_CAP and CHUNK_MAX). -/
def within (n : Nat) : Option Nat → Bool
  | none => true
  | some cap => decide (n ≤ cap)

/-- The numeric code of an error kind; 0 is "no error" (60_exceptions.md R201). -/
def errCode : Option ErrKind → Nat
  | none => 0
  | some .frameTooShort => 1
  | some .headerUnparsable => 2
  | some .payloadLengthMismatch => 3
  | some .checksumMismatch => 4
  | some .dataUnitHeaderTruncated => 5
  | some .dataUnitValueTruncated => 6
  | some .dataUnitTypeLengthMismatch => 7
  | some .dataUnitUnknownType => 8

/-- The kind of a DecodeError (60_exceptions.md R201, R204). -/
def errorKind : DecodeError → ErrKind
  | .frameTooShort _ => .frameTooShort
  | .headerUnparsable _ => .headerUnparsable
  | .payloadLengthMismatch _ => .payloadLengthMismatch
  | .checksumMismatch _ _ _ => .checksumMismatch
  | .dataUnitHeaderTruncated _ => .dataUnitHeaderTruncated
  | .dataUnitValueTruncated _ => .dataUnitValueTruncated

/-- The offending raw bytes every DecodeError carries (10_state.md R31). -/
def errorRaw : DecodeError → List Byte
  | .frameTooShort raw => raw
  | .headerUnparsable raw => raw
  | .payloadLengthMismatch raw => raw
  | .checksumMismatch _ _ raw => raw
  | .dataUnitHeaderTruncated raw => raw
  | .dataUnitValueTruncated raw => raw

/-- The error kind of a value, for the two per-unit error variants (10_state.md R30; 60_exceptions.md R201). -/
def valueKind : Value → Option ErrKind
  | .errTypeLength _ => some .dataUnitTypeLengthMismatch
  | .errUnknownType => some .dataUnitUnknownType
  | .rawV _ => none
  | .boolV _ => none
  | .int32V _ => none
  | .strV _ => none
  | .enum8V _ => none
  | .bitmap32V _ => none

/-- The error kind of an element of OUT, if it is an error or an error variant (60_exceptions.md R206). -/
def unitResultKind : UnitResult → Option ErrKind
  | .unit u => valueKind u.value
  | .err e => some (errorKind e)

/-- The numeric code of an event: ORPHAN 0, PACKET 1, PKT_ERROR 2 (10_state.md R34). -/
def eventCode : Event → Nat
  | .orphan _ => 0
  | .packet _ => 1
  | .pktError _ => 2

end Sys2Proof.Machine
end

