-- ==== Sys2Proof/Machine/Operands.lean ====
section
/-! DEFINITION. Reading operands: registers, bytes and slices (20_memory.md R55 to R57), the checksum of a byte
range (40_checksum.md R110), and the seven readings of a data unit's value (41_data_unit_decoder.md R126 to
R133, R138). -/

namespace Sys2Proof.Machine

/-- The value a working register holds; reading one that holds none would be a fault (93 U13). -/
def readReg {α : Type} : Option α → Except Fault α
  | some a => .ok a
  | none => .error .registerHoldsNoValue

/-- The index an index register holds; NONE where DRAIN_STEP needs a marker would break its precondition
(43_frame_extractor.md R174). -/
def markerIndex : Option Nat → Except Fault Nat
  | some i => .ok i
  | none => .error .noMarker

/-- `b[i]` (00_scope.md R11; 20_memory.md R57). -/
def byteAt (b : List Byte) (i : Nat) : Except Fault Byte :=
  match b[i]? with
  | some x => .ok x
  | none => .error .indexOutOfRange

/-- `b[i:j]` (00_scope.md R11; 20_memory.md R57). -/
def slice (b : List Byte) (i j : Nat) : Except Fault (List Byte) :=
  if i ≤ j ∧ j ≤ b.length then .ok ((b.drop i).take (j - i)) else .error .indexOutOfRange

/-- CHECKSUM: the low 8 bits of the arithmetic sum of all input bytes (40_checksum.md R110). -/
def checksumOf (b : List Byte) : Byte :=
  BitVec.ofNat 8 (b.foldl (fun s x => s + x.toNat) 0)

/-- One transition of the marker detector on a byte: `none` reports a match (10_state.md R35). -/
def mdNext (st : MdState) (x : Byte) : Option MdState :=
  match st with
  | .idle => if x = marker0 then some .got55 else some .idle
  | .got55 => if x = marker1 then none else if x = marker0 then some .got55 else some .idle

/-- The byte ranges of the nine well-formed UTF-8 sequence shapes (41_data_unit_decoder.md R138). -/
def utf8Shapes : List (List (Nat × Nat)) :=
  [ [(0x00, 0x7F)],
    [(0xC2, 0xDF), (0x80, 0xBF)],
    [(0xE0, 0xE0), (0xA0, 0xBF), (0x80, 0xBF)],
    [(0xE1, 0xEC), (0x80, 0xBF), (0x80, 0xBF)],
    [(0xED, 0xED), (0x80, 0x9F), (0x80, 0xBF)],
    [(0xEE, 0xEF), (0x80, 0xBF), (0x80, 0xBF)],
    [(0xF0, 0xF0), (0x90, 0xBF), (0x80, 0xBF), (0x80, 0xBF)],
    [(0xF1, 0xF3), (0x80, 0xBF), (0x80, 0xBF), (0x80, 0xBF)],
    [(0xF4, 0xF4), (0x80, 0x8F), (0x80, 0xBF), (0x80, 0xBF)] ]

/-- The bytes begin with a sequence of the given shape; a sequence cut short by the end does not (R138). -/
def beginsWithShape : List (Nat × Nat) → List Byte → Bool
  | [], _ => true
  | _ :: _, [] => false
  | (lo, hi) :: ranges, x :: xs =>
    decide (lo ≤ x.toNat) && decide (x.toNat ≤ hi) && beginsWithShape ranges xs

/-- The length of the well-formed UTF-8 sequence at the head of the bytes, if there is one (R138). -/
def utf8SequenceLength (b : List Byte) : Option Nat :=
  (utf8Shapes.find? (fun shape => beginsWithShape shape b)).map List.length

/-- The scan of UTF8_FILTER: keep a well-formed sequence whole, else drop one byte (R138). The first argument
bounds the number of scan steps; the length of the bytes is enough. -/
def utf8Scan : Nat → List Byte → List Byte
  | 0, _ => []
  | _ + 1, [] => []
  | k + 1, x :: xs =>
    match utf8SequenceLength (x :: xs) with
    | some n => (x :: xs).take n ++ utf8Scan k ((x :: xs).drop n)
    | none => utf8Scan k xs

/-- UTF8_FILTER (R138; assumption log 7). -/
def utf8Filter (b : List Byte) : List Byte :=
  utf8Scan b.length b

/-- INTERP for TYPE 0 (R127). -/
def interpRaw (val : List Byte) : Value := .rawV val

/-- INTERP for TYPE 1: a lenient equality test, not a length check (R128; 90_conflicts.md C9). -/
def interpBool (val : List Byte) : Value := .boolV (val == [1])

/-- INTERP for TYPE 2 (R129). -/
def interpInt32 : List Byte → Value
  | [a, b, c, d] => .int32V (be32s a b c d)
  | _ => .errTypeLength 4

/-- INTERP for TYPE 3 (R130). -/
def interpString (val : List Byte) : Value := .strV (utf8Filter val)

/-- INTERP for TYPE 4 (R131). -/
def interpEnum8 : List Byte → Value
  | [a] => .enum8V a
  | _ => .errTypeLength 1

/-- INTERP for TYPE 5 (R132). -/
def interpBitmap32 : List Byte → Value
  | [a, b, c, d] => .bitmap32V (be32u a b c d)
  | _ => .errTypeLength 4

/-- INTERP for TYPE 6 to 255 (R133). -/
def interpUnknown (_val : List Byte) : Value := .errUnknownType

/-- INTERP: the selection depends on TYPE alone (R126). -/
def interp (tag : Byte) (val : List Byte) : Value :=
  if tag = 0 then interpRaw val
  else if tag = 1 then interpBool val
  else if tag = 2 then interpInt32 val
  else if tag = 3 then interpString val
  else if tag = 4 then interpEnum8 val
  else if tag = 5 then interpBitmap32 val
  else interpUnknown val

end Sys2Proof.Machine
end

