-- ==== Sys2Proof/Machine/Ops.lean ====
section
/-! DEFINITION. The named operations over the state: its updates, taking an error (60_exceptions.md R208), and the
algorithms of the four components as sequences of register transfers (R121, R150, R171, R174). An operation
answers `Except Fault`, because the reads inside it are checked. -/

namespace Sys2Proof.Machine

/-! Updates of one field. -/

/-- BUF written. Only OP.PUSH, OP.DRAIN and OP.RESET do (10_state.md R21). -/
def State.withBuf (s : State) (buf : List Byte) : State := { s with buf := buf }

/-- An event appended to EVQ: `emit` (00_scope.md R18; 10_state.md R34). -/
def State.emit (s : State) (e : Event) : State := { s with evq := s.evq ++ [e] }

/-- EVQ emptied: only OP.RESET does it (70_reset_and_hazards.md R240). -/
def State.clearEvents (s : State) : State := { s with evq := [] }

/-- The Frame Extractor's working registers written. -/
def State.withFe (s : State) (fe : FeRegs) : State := { s with fe := fe }

/-- The Packet Decoder's working registers written. -/
def State.withPd (s : State) (pd : PdRegs) : State := { s with pd := pd }

/-- The Data-Unit Decoder's working registers written. -/
def State.withDu (s : State) (du : DuRegs) : State := { s with du := du }

/-- The marker detector written. -/
def State.withMd (s : State) (md : Option MdState) : State := { s with md := md }

/-- A value returned to the caller of a stand-alone call (00_scope.md R13; assumption log 3). -/
def State.withRet (s : State) (ret : Ret) : State := { s with ret := ret }

/-- The host's issued requests replaced (assumption log 2). -/
def State.withPending (s : State) (pending : List Request) : State := { s with pending := pending }

/-- No working register holds a value: how every operation leaves them (10_state.md R23), the marker
detector too (R35; assumption log 4). -/
def State.release (s : State) : State := { s with fe := {}, pd := {}, du := {}, md := none }

/-! Taking an error. Nothing is saved, no mode changes and no control transfers (60_exceptions.md R208, R209):
a packet-level error is emitted, a terminal data-unit error is placed in OUT. -/

/-- The event a result of `decode_packet` is emitted as (43_frame_extractor.md R181). -/
def eventOf : PacketResult → Event
  | .packet p => .packet p
  | .err e => .pktError e

/-- Emit the result of `decode_packet`, whatever it is (R181; 60_exceptions.md R208). -/
def emitResult (r : PacketResult) (s : State) : State :=
  s.emit (eventOf r)

/-- Append an element to OUT (41_data_unit_decoder.md R121; 60_exceptions.md R208). -/
def appendOut (u : UnitResult) (s : State) : Except Fault State := do
  let out ← readReg s.du.out
  .ok (s.withDu { s.du with out := some (out ++ [u]) })

/-! Marker detection: the two-state scanner (10_state.md R35; 43_frame_extractor.md R172). -/

/-- The scan from index `i` on, MD holding the detector's state. -/
def scanLoop : List Byte → Nat → State → Except Fault (Option Nat × State)
  | [], _, s => .ok (none, s)
  | x :: xs, i, s => do
    let st ← readReg s.md
    match mdNext st x with
    | none => .ok (some (i - 1), s)
    | some st' => scanLoop xs (i + 1) (s.withMd (some st'))

/-- One search: MD starts at MD_IDLE and keeps nothing afterwards (R35, R172). -/
def search (b : List Byte) (s : State) : Except Fault (Option Nat × State) := do
  let (r, s) ← scanLoop b 0 (s.withMd (some .idle))
  .ok (r, s.withMd none)

/-! The Data-Unit Decoder (41_data_unit_decoder.md). -/

/-- A call starts: CUR is 0 and OUT is empty (R121; 10_state.md R39). -/
def openUnits (s : State) : State :=
  s.withDu { cur := some 0, out := some [] }

/-- Step 2: the four header bytes, then CUR past them (R123). -/
def readHeader (payload : List Byte) (s : State) : Except Fault State := do
  let cur ← readReg s.du.cur
  let id ← byteAt payload cur
  let tag ← byteAt payload (cur + 1)
  let hi ← byteAt payload (cur + 2)
  let lo ← byteAt payload (cur + 3)
  .ok (s.withDu { s.du with
    id := some id, tag := some tag, vlen := some (be16 hi lo), cur := some (cur + duHdrLen) })

/-- Step 4: the value slice, then CUR past it (R125). -/
def takeValue (payload : List Byte) (s : State) : Except Fault State := do
  let cur ← readReg s.du.cur
  let vlen ← readReg s.du.vlen
  let val ← slice payload cur (cur + vlen.toNat)
  .ok (s.withDu { s.du with val := some val, cur := some (cur + vlen.toNat) })

/-- Step 6: append the DataUnit the registers hold, with the given reading of its value (R134). -/
def appendUnit (value : Value) (s : State) : Except Fault State := do
  let id ← readReg s.du.id
  let tag ← readReg s.du.tag
  let vlen ← readReg s.du.vlen
  let val ← readReg s.du.val
  appendOut (.unit { id := id, tag := tag, vlen := vlen, value := value, raw := val }) s

/-- Step 5: dispatch on TYPE (R126), then step 6. -/
def interpret (s : State) : Except Fault State := do
  let tag ← readReg s.du.tag
  let val ← readReg s.du.val
  appendUnit (interp tag val) s

/-- The loop of DU.PARSE (R121). The first argument bounds the number of iterations, each of which raises CUR
by at least 4 (R135); the length of the payload is enough. -/
def unitLoop : Nat → List Byte → State → Except Fault State
  | 0, _, s => .ok s
  | k + 1, payload, s => do
    let cur ← readReg s.du.cur
    if moreToParse payload cur then
      if headerTruncated payload cur then
        let raw ← slice payload cur payload.length
        appendOut (.err (.dataUnitHeaderTruncated raw)) s
      else
        let s ← readHeader payload s
        let cur ← readReg s.du.cur
        let vlen ← readReg s.du.vlen
        if valueTruncated payload cur vlen then
          let raw ← slice payload (cur - duHdrLen) payload.length
          appendOut (.err (.dataUnitValueTruncated raw)) s
        else
          let s ← takeValue payload s
          let s ← interpret s
          unitLoop k payload s
    else .ok s

/-- A call ends: OUT is the result and no working register keeps a value (R120; 10_state.md R23). -/
def closeUnits (s : State) : Except Fault (List UnitResult × State) := do
  let out ← readReg s.du.out
  .ok (out, s.withDu {})

/-- DU.PARSE: `decode_data_units` (R120, R121). -/
def parseUnits (payload : List Byte) (s : State) : Except Fault (List UnitResult × State) := do
  let s ← unitLoop payload.length payload (openUnits s)
  closeUnits s

/-- One data unit handed over on its own: its header and value in the registers, CUR past them, and one
DataUnit in OUT (R123, R125, R134). -/
def loneUnit (id tag : Byte) (vlen : Half) (val : List Byte) (value : Value) (s : State) :
    Except Fault (List UnitResult × State) := do
  let s ← appendUnit value ((openUnits s).withDu
    { cur := some (duHdrLen + vlen.toNat), id := some id, tag := some tag, vlen := some vlen,
      val := some val, out := some [] })
  closeUnits s

/-! The Packet Decoder (42_packet_decoder.md). -/

/-- Step 2: VER, CMD and LEN (R153). Offsets 0 and 1 are not examined. -/
def parseHeader (frame : List Byte) (s : State) : Except Fault State := do
  let ver ← byteAt frame 2
  let hi ← byteAt frame 3
  let lo ← byteAt frame 4
  let len ← byteAt frame 5
  .ok (s.withPd { s.pd with ver := some ver, cmd := some (be16 hi lo), len := some len })

/-- Step 3: TOTAL is 6 + LEN + 1, 9 bits wide (R154; 10_state.md R39). -/
def computeTotal (s : State) : Except Fault State := do
  let len ← readReg s.pd.len
  .ok (s.withPd { s.pd with total := some (BitVec.ofNat 9 (hdrLen + len.toNat + 1)) })

/-- Step 4: PAY and CK_RX (R155). -/
def slicePayload (frame : List Byte) (s : State) : Except Fault State := do
  let len ← readReg s.pd.len
  let pay ← slice frame hdrLen (hdrLen + len.toNat)
  let rx ← byteAt frame (hdrLen + len.toNat)
  .ok (s.withPd { s.pd with pay := some pay, ckRx := some rx })

/-- Step 5: CK_CALC over FRAME[CKSUM_START : 6 + LEN] (R156; 40_checksum.md R113). -/
def calcChecksum (frame : List Byte) (s : State) : Except Fault State := do
  let len ← readReg s.pd.len
  let covered ← slice frame (cksumOffset s.cfg.cksumStart) (hdrLen + len.toNat)
  .ok (s.withPd { s.pd with ckCalc := some (checksumOf covered) })

/-- Step 7: DU.PARSE on the payload, then the Packet with all fields populated (R158; 10_state.md R25). -/
def buildPacket (s : State) : Except Fault (PacketResult × State) := do
  let pay ← readReg s.pd.pay
  let (units, s) ← parseUnits pay s
  let ver ← readReg s.pd.ver
  let cmd ← readReg s.pd.cmd
  let len ← readReg s.pd.len
  let rx ← readReg s.pd.ckRx
  .ok (.packet { version := ver, command := cmd, length := len, payload := pay, checksum := rx,
                 units := units }, s)

/-- Steps 4 to 7 on a frame that passed both length checks (R155 to R158). -/
def checkAndBuild (frame : List Byte) (s : State) : Except Fault (PacketResult × State) := do
  let s ← slicePayload frame s
  let s ← calcChecksum frame s
  let ckCalc ← readReg s.pd.ckCalc
  let ckRx ← readReg s.pd.ckRx
  if checksumDiffers ckCalc ckRx then .ok (.err (.checksumMismatch ckCalc ckRx frame), s)
  else buildPacket s

/-- The seven steps in order, stopping at the first check that fails (R150, R151). -/
def packetSteps (frame : List Byte) (s : State) : Except Fault (PacketResult × State) :=
  if frameTooShort frame then .ok (.err (.frameTooShort frame), s)
  else do
    let s ← parseHeader frame s
    let s ← computeTotal s
    let total ← readReg s.pd.total
    if belowTotal frame total then .ok (.err (.payloadLengthMismatch frame), s)
    else checkAndBuild frame s

/-- `decode_packet` (R150). The call starts and ends with working registers that hold no value (10_state.md
R23); it has no side effect (R159). -/
def decodePacket (frame : List Byte) (s : State) : Except Fault (PacketResult × State) := do
  let (r, s) ← packetSteps frame (s.withPd {})
  .ok (r, s.withPd {})

/-! The Frame Extractor (43_frame_extractor.md): DRAIN_STEP, rule by rule, and its iteration. -/

/-- Locate the first marker (R175). -/
def locate (s : State) : Except Fault State := do
  let (m, s) ← search s.buf s
  .ok (s.withFe { s.fe with m := some m })

/-- Emit the orphan bytes before it, if there are any (R176). -/
def emitOrphan (s : State) : Except Fault State := do
  let m ← readReg s.fe.m
  let m ← markerIndex m
  if m = 0 then .ok s
  else
    let orphan ← slice s.buf 0 m
    .ok (s.emit (.orphan orphan))

/-- Drop everything up to and including it (R177). -/
def consumeMarker (s : State) : Except Fault State := do
  let m ← readReg s.fe.m
  let m ← markerIndex m
  let rest ← slice s.buf (m + markerLen) s.buf.length
  .ok (s.withBuf rest)

/-- Locate the next marker in the remainder (R178). -/
def locateNext (s : State) : Except Fault State := do
  let (n, s) ← search s.buf s
  .ok (s.withFe { s.fe with n := some n })

/-- Cut the body: the whole remainder (R179) or the bytes before the next marker (R180); prepend the marker
(R181). -/
def cutFrame (s : State) : Except Fault State := do
  let n ← readReg s.fe.n
  match n with
  | none => .ok ((s.withFe { s.fe with frame := some (marker ++ s.buf) }).withBuf [])
  | some n =>
    let body ← slice s.buf 0 n
    let rest ← slice s.buf n s.buf.length
    .ok ((s.withFe { s.fe with frame := some (marker ++ body) }).withBuf rest)

/-- Hand the candidate to the Packet Decoder once, emit its result, discard FRAME (R181). -/
def decodeFrame (s : State) : Except Fault State := do
  let frame ← readReg s.fe.frame
  let (r, s) ← decodePacket frame s
  .ok ((emitResult r s).withFe {})

/-- DRAIN_STEP (R175 to R181). -/
def drainStep (s : State) : Except Fault State := do
  let s ← locate (s.withFe {})
  let s ← emitOrphan s
  let s ← consumeMarker s
  let s ← locateNext s
  let s ← cutFrame s
  decodeFrame s

/-- OP.DRAIN's loop: DRAIN_STEP while the buffer holds a marker (R174). The first argument bounds the number
of iterations; half the length of BUF is enough (R183). -/
def drainLoop : Nat → State → Except Fault State
  | 0, s => .ok s
  | k + 1, s => do
    let (m, s) ← search s.buf s
    match m with
    | none => .ok s
    | some _ =>
      let s ← drainStep s
      drainLoop k s

/-! How an operation ends. -/

/-- The end of a stand-alone call: its result goes to the caller and no working register keeps a value. -/
def returning (r : Except Fault (Ret × State)) : Host.Outcome State Fault Refusal :=
  match r with
  | .ok (v, s) => .next (s.release.withRet v)
  | .error f => .fault f

/-- The end of a host operation that returns nothing: no working register keeps a value. -/
def finishing (r : Except Fault State) : Host.Outcome State Fault Refusal :=
  match r with
  | .ok s => .next s.release
  | .error f => .fault f

/-- A stand-alone data unit: the shared shape of the seven cases. -/
def runUnit (id tag : Byte) (vlen : Half) (val : List Byte) (value : Value) (s : State) :
    Host.Outcome State Fault Refusal :=
  returning (do
    let (us, s) ← loneUnit id tag vlen val value s
    .ok (.units us, s))

end Sys2Proof.Machine
end

