-- ==== Sys2Proof/Machine/HostFamily.lean ====
section
/-! DEFINITION. The meanings of the host operations (30_encoding.md R97). -/

namespace Sys2Proof.Machine

/-- OP.RESET: BUF and EVQ empty, no working register holds a value (70_reset_and_hazards.md R240; 10_state.md
R37). The parameters keep their values (R38); the returned value is cleared with EVQ and the host's other
requests stay (assumption log 15). -/
def execOpReset (s : State) : Host.Outcome State Fault Refusal :=
  .next (((s.release.withBuf []).withRet .nothing).clearEvents)

/-- OP.PUSH: the chunk appended to BUF (43_frame_extractor.md R173). No step while a drain is in progress
(20_memory.md R64), for a chunk longer than CHUNK_MAX, or past a finite BUF_CAP (10_state.md R22). -/
def execOpPush (chunk : List Byte) (s : State) : Host.Outcome State Fault Refusal :=
  if drainInProgress s then .refused .pushDuringDrain
  else if !within chunk.length s.cfg.chunkMax then .refused .chunkTooLong
  else if !within (s.buf.length + chunk.length) s.cfg.bufCap then .refused .bufCapExceeded
  else .next (s.withBuf (s.buf ++ chunk))

/-- OP.DRAIN: DRAIN_STEP to exhaustion (43_frame_extractor.md R174). -/
def execOpDrain (s : State) : Host.Outcome State Fault Refusal :=
  finishing (drainLoop (s.buf.length / 2) s)

end Sys2Proof.Machine
end

