-- ==== Sys2Proof/Machine/InternalFamily.lean ====
section
/-! DEFINITION. The meanings of CHECKSUM (40_checksum.md) and FIND_MARKER (43_frame_extractor.md). -/

namespace Sys2Proof.Machine

/-- CHECKSUM: a pure function of the bytes (R110). -/
def execChecksum (bytes : List Byte) (s : State) : Host.Outcome State Fault Refusal :=
  returning (.ok (.byte (checksumOf bytes), s))

/-- FIND_MARKER: one search over the bytes (R171, R172). -/
def execFindMarker (bytes : List Byte) (s : State) : Host.Outcome State Fault Refusal :=
  returning (do
    let (r, s) ← search bytes s
    .ok (.index r, s))

end Sys2Proof.Machine
end

