-- ==== Sys2Proof/Machine/PacketFamily.lean ====
section
/-! DEFINITION. The meaning of FRAME (42_packet_decoder.md). -/

namespace Sys2Proof.Machine

/-- FRAME: `decode_packet` of the bytes; the result goes to the caller and nothing else changes (R150, R159). -/
def execFrame (bytes : List Byte) (s : State) : Host.Outcome State Fault Refusal :=
  returning (do
    let (r, s) ← decodePacket bytes s
    .ok (.result r, s))

end Sys2Proof.Machine
end

