-- ==== Sys2Proof/Machine/UnitFamily.lean ====
section
/-! DEFINITION. The meanings of the seven data-unit cases and of DU.PARSE (41_data_unit_decoder.md). A data unit
handed over on its own answers with the one DataUnit that step 6 appends (R134; assumption log 3). -/

namespace Sys2Proof.Machine

/-- DU.RAW (R127). -/
def execDuRaw (id : Byte) (vlen : Half) (val : List Byte) (s : State) : Host.Outcome State Fault Refusal :=
  runUnit id 0 vlen val (interpRaw val) s

/-- DU.BOOL (R128). -/
def execDuBool (id : Byte) (vlen : Half) (val : List Byte) (s : State) : Host.Outcome State Fault Refusal :=
  runUnit id 1 vlen val (interpBool val) s

/-- DU.INT32 (R129). -/
def execDuInt32 (id : Byte) (vlen : Half) (val : List Byte) (s : State) : Host.Outcome State Fault Refusal :=
  runUnit id 2 vlen val (interpInt32 val) s

/-- DU.STRING (R130). -/
def execDuString (id : Byte) (vlen : Half) (val : List Byte) (s : State) : Host.Outcome State Fault Refusal :=
  runUnit id 3 vlen val (interpString val) s

/-- DU.ENUM8 (R131). -/
def execDuEnum8 (id : Byte) (vlen : Half) (val : List Byte) (s : State) : Host.Outcome State Fault Refusal :=
  runUnit id 4 vlen val (interpEnum8 val) s

/-- DU.BITMAP32 (R132). -/
def execDuBitmap32 (id : Byte) (vlen : Half) (val : List Byte) (s : State) :
    Host.Outcome State Fault Refusal :=
  runUnit id 5 vlen val (interpBitmap32 val) s

/-- DU.UNKNOWN: the DataUnit keeps the TYPE byte received (R133; 90_conflicts.md C7). -/
def execDuUnknown (id tag : Byte) (vlen : Half) (val : List Byte) (s : State) :
    Host.Outcome State Fault Refusal :=
  runUnit id tag vlen val (interpUnknown val) s

/-- DU.PARSE (R120, R121). -/
def execDuParse (payload : List Byte) (s : State) : Host.Outcome State Fault Refusal :=
  returning (do
    let (us, s) ← parseUnits payload s
    .ok (.units us, s))

end Sys2Proof.Machine
end

