-- ==== Sys2Proof/Machine/Dispatch.lean ====
section
/-! DEFINITION. The dispatch from instructions to their meanings: one arm per row of spec/opcode_table.json. -/

namespace Sys2Proof.Machine

def exec (i : Instr) (s : State) : Host.Outcome State Fault Refusal :=
  match i with
  | .frame bytes => Sys2Proof.Machine.execFrame bytes s
  | .duRaw id vlen value => Sys2Proof.Machine.execDuRaw id vlen value s
  | .duBool id vlen value => Sys2Proof.Machine.execDuBool id vlen value s
  | .duInt32 id vlen value => Sys2Proof.Machine.execDuInt32 id vlen value s
  | .duString id vlen value => Sys2Proof.Machine.execDuString id vlen value s
  | .duEnum8 id vlen value => Sys2Proof.Machine.execDuEnum8 id vlen value s
  | .duBitmap32 id vlen value => Sys2Proof.Machine.execDuBitmap32 id vlen value s
  | .duUnknown id tag vlen value => Sys2Proof.Machine.execDuUnknown id tag vlen value s
  | .duParse payload => Sys2Proof.Machine.execDuParse payload s
  | .checksum bytes => Sys2Proof.Machine.execChecksum bytes s
  | .findMarker bytes => Sys2Proof.Machine.execFindMarker bytes s
  | .opReset => Sys2Proof.Machine.execOpReset s
  | .opPush chunk => Sys2Proof.Machine.execOpPush chunk s
  | .opDrain => Sys2Proof.Machine.execOpDrain s

end Sys2Proof.Machine
end

