-- ==== Sys2Proof/Machine/Step.lean ====
section
/-! DEFINITION. One step: the block takes the oldest request the host has issued, decodes it and performs it to
completion (00_scope.md R7; 20_memory.md R61). -/

namespace Sys2Proof.Machine

/-- A rejected request gets no step (30_encoding.md R97). -/
def refusalOf : Reject → Refusal
  | .reservedOpCode => .reservedOpCode

/-- With no request issued there is nothing to do yet and nothing changes (20_memory.md R65; assumption log 2). -/
def step (s : State) : Host.Outcome State Fault Refusal :=
  match s.pending with
  | [] => .next s
  | r :: rest =>
    match decode r with
    | .ok i => exec i (s.withPending rest)
    | .error e => .refused (refusalOf e)

/-- The instruction an opcode-table word stands for, issued by the host so that the very next step performs it.
Nothing else changes: the requests already issued follow it. -/
def State.withFetchWord (s : State) (nbits w : Nat) : State :=
  match requestOfWord nbits w with
  | none => s
  | some r => s.withPending (r :: s.pending)

end Sys2Proof.Machine
end

