-- ==== Sys2Proof/Safety.lean ====
section
/-! DEFINITION. The terms the claims use: the contracts of the four components as relations over byte sequences,
written from the spec's rules and not from the machine's register transfers, and the invariant of the block
between operations. -/

namespace Sys2Proof.Contract

open Sys2Proof.Machine

/-! Markers (43_frame_extractor.md R171). -/

/-- The two bytes of MARKER (30_encoding.md R81). -/
def mark : List Byte := [0x55, 0xAA]

/-- A marker begins at index `i`. -/
abbrev MarkerAt (b : List Byte) (i : Nat) : Prop :=
  b[i]? = some 0x55 ∧ b[i + 1]? = some 0xAA

/-- The least index at which a marker begins (R171). -/
def FirstMarker (b : List Byte) (i : Nat) : Prop :=
  MarkerAt b i ∧ ∀ j < i, ¬ MarkerAt b j

/-- No marker begins anywhere: `find_marker` is NONE (R171). -/
def NoMarker (b : List Byte) : Prop :=
  ∀ i, ¬ MarkerAt b i

/-- The number of marker occurrences (R183). -/
def markerCount (b : List Byte) : Nat :=
  ((List.range b.length).filter (fun i => decide (MarkerAt b i))).length

/-! Checksum (40_checksum.md R110). -/

/-- The sum of the bytes modulo 256. -/
def sumMod256 (b : List Byte) : Byte :=
  BitVec.ofNat 8 ((b.map BitVec.toNat).sum % 256)

/-! Text (41_data_unit_decoder.md R138). -/

/-- `lo..hi`, inclusive byte values. -/
def InRange (lo hi : Nat) (x : Byte) : Prop :=
  lo ≤ x.toNat ∧ x.toNat ≤ hi

/-- The nine shapes of a well-formed sequence, one constructor each (R138). -/
inductive Utf8Sequence : List Byte → Prop where
  | one {a : Byte} (ha : InRange 0x00 0x7F a) : Utf8Sequence [a]
  | two {a b : Byte} (ha : InRange 0xC2 0xDF a) (hb : InRange 0x80 0xBF b) : Utf8Sequence [a, b]
  | threeE0 {a b c : Byte} (ha : InRange 0xE0 0xE0 a) (hb : InRange 0xA0 0xBF b)
      (hc : InRange 0x80 0xBF c) : Utf8Sequence [a, b, c]
  | threeE1 {a b c : Byte} (ha : InRange 0xE1 0xEC a) (hb : InRange 0x80 0xBF b)
      (hc : InRange 0x80 0xBF c) : Utf8Sequence [a, b, c]
  | threeED {a b c : Byte} (ha : InRange 0xED 0xED a) (hb : InRange 0x80 0x9F b)
      (hc : InRange 0x80 0xBF c) : Utf8Sequence [a, b, c]
  | threeEE {a b c : Byte} (ha : InRange 0xEE 0xEF a) (hb : InRange 0x80 0xBF b)
      (hc : InRange 0x80 0xBF c) : Utf8Sequence [a, b, c]
  | fourF0 {a b c d : Byte} (ha : InRange 0xF0 0xF0 a) (hb : InRange 0x90 0xBF b)
      (hc : InRange 0x80 0xBF c) (hd : InRange 0x80 0xBF d) : Utf8Sequence [a, b, c, d]
  | fourF1 {a b c d : Byte} (ha : InRange 0xF1 0xF3 a) (hb : InRange 0x80 0xBF b)
      (hc : InRange 0x80 0xBF c) (hd : InRange 0x80 0xBF d) : Utf8Sequence [a, b, c, d]
  | fourF4 {a b c d : Byte} (ha : InRange 0xF4 0xF4 a) (hb : InRange 0x80 0x8F b)
      (hc : InRange 0x80 0xBF c) (hd : InRange 0x80 0xBF d) : Utf8Sequence [a, b, c, d]

/-- Well-formed UTF-8: sequences laid end to end. -/
inductive Utf8Text : List Byte → Prop where
  | nil : Utf8Text []
  | cons {q rest : List Byte} (hq : Utf8Sequence q) (hr : Utf8Text rest) : Utf8Text (q ++ rest)

/-- What UTF8_FILTER keeps: a well-formed sequence whole where one begins, else nothing of that one byte
(R138). -/
inductive Utf8Kept : List Byte → List Byte → Prop where
  | done : Utf8Kept [] []
  | keep {q rest kept : List Byte} (hq : Utf8Sequence q) (hr : Utf8Kept rest kept) :
      Utf8Kept (q ++ rest) (q ++ kept)
  | drop {x : Byte} {rest kept : List Byte}
      (hx : ∀ q tail, x :: rest = q ++ tail → ¬ Utf8Sequence q) (hr : Utf8Kept rest kept) :
      Utf8Kept (x :: rest) kept

/-! Data units (41_data_unit_decoder.md R120 to R134). -/

/-- INTERP, one or two constructors per TYPE case (R126 to R133). -/
inductive Interprets : Byte → List Byte → Value → Prop where
  | raw (val : List Byte) : Interprets 0 val (.rawV val)
  | boolTrue : Interprets 1 [1] (.boolV true)
  | boolFalse {val : List Byte} (h : val ≠ [1]) : Interprets 1 val (.boolV false)
  | int32 {a b c d : Byte} {u : Nat}
      (hu : u = a.toNat * 2 ^ 24 + b.toNat * 2 ^ 16 + c.toNat * 2 ^ 8 + d.toNat) :
      Interprets 2 [a, b, c, d] (.int32V (if u < 2 ^ 31 then (u : Int) else (u : Int) - 2 ^ 32))
  | int32Width {val : List Byte} (h : val.length ≠ 4) : Interprets 2 val (.errTypeLength 4)
  | string {val kept : List Byte} (h : Utf8Kept val kept) : Interprets 3 val (.strV kept)
  | enum8 (a : Byte) : Interprets 4 [a] (.enum8V a)
  | enum8Width {val : List Byte} (h : val.length ≠ 1) : Interprets 4 val (.errTypeLength 1)
  | bitmap32 {a b c d : Byte} {n : Word}
      (hn : n.toNat = a.toNat * 2 ^ 24 + b.toNat * 2 ^ 16 + c.toNat * 2 ^ 8 + d.toNat) :
      Interprets 5 [a, b, c, d] (.bitmap32V n)
  | bitmap32Width {val : List Byte} (h : val.length ≠ 4) : Interprets 5 val (.errTypeLength 4)
  | unknown {tag : Byte} (val : List Byte) (h : 6 ≤ tag.toNat) : Interprets tag val .errUnknownType

/-- DU.PARSE as a relation between a payload and its units: PAYLOAD := DataUnit*, ended by a terminal error
where a header or a value is cut short (R121 to R125, R134, R136). -/
inductive Records : List Byte → List UnitResult → Prop where
  | done : Records [] []
  | headerCut {payload : List Byte} (h0 : payload ≠ []) (h4 : payload.length < 4) :
      Records payload [.err (.dataUnitHeaderTruncated payload)]
  | valueCut {id tag hi lo : Byte} {rest : List Byte}
      (h : rest.length < hi.toNat * 256 + lo.toNat) :
      Records (id :: tag :: hi :: lo :: rest)
        [.err (.dataUnitValueTruncated (id :: tag :: hi :: lo :: rest))]
  | unit {id tag hi lo : Byte} {vlen : Half} {val rest : List Byte} {value : Value}
      {us : List UnitResult}
      (hv : vlen.toNat = hi.toNat * 256 + lo.toNat) (hl : val.length = vlen.toNat)
      (hval : Interprets tag val value) (hr : Records rest us) :
      Records (id :: tag :: hi :: lo :: (val ++ rest))
        (.unit { id := id, tag := tag, vlen := vlen, value := value, raw := val } :: us)

/-! Frames (42_packet_decoder.md R150 to R160). -/

/-- The bytes the checksum covers: VERSION to the last payload byte, and the two bytes before them where
CKSUM_START is 0 (30_encoding.md R86). -/
def covered (cfg : Config) (m0 m1 : Byte) (fields : List Byte) : List Byte :=
  match cfg.cksumStart with
  | .markerExcluded => fields
  | .markerIncluded => m0 :: m1 :: fields

/-- `decode_packet` as a relation between a frame and its one result. -/
inductive FrameResult (cfg : Config) : List Byte → PacketResult → Prop where
  | tooShort {frame : List Byte} (h : frame.length < 7) :
      FrameResult cfg frame (.err (.frameTooShort frame))
  | lengthMismatch {m0 m1 ver hi lo len : Byte} {rest : List Byte}
      (h1 : 1 ≤ rest.length) (h : rest.length < len.toNat + 1) :
      FrameResult cfg (m0 :: m1 :: ver :: hi :: lo :: len :: rest)
        (.err (.payloadLengthMismatch (m0 :: m1 :: ver :: hi :: lo :: len :: rest)))
  | sumMismatch {m0 m1 ver hi lo len rx : Byte} {pay tail : List Byte}
      (hl : pay.length = len.toNat)
      (hs : sumMod256 (covered cfg m0 m1 (ver :: hi :: lo :: len :: pay)) ≠ rx) :
      FrameResult cfg (m0 :: m1 :: ver :: hi :: lo :: len :: (pay ++ rx :: tail))
        (.err (.checksumMismatch (sumMod256 (covered cfg m0 m1 (ver :: hi :: lo :: len :: pay))) rx
          (m0 :: m1 :: ver :: hi :: lo :: len :: (pay ++ rx :: tail))))
  | accepted {m0 m1 ver hi lo len rx : Byte} {cmd : Half} {pay tail : List Byte}
      {us : List UnitResult}
      (hc : cmd.toNat = hi.toNat * 256 + lo.toNat) (hl : pay.length = len.toNat)
      (hs : sumMod256 (covered cfg m0 m1 (ver :: hi :: lo :: len :: pay)) = rx)
      (hu : Records pay us) :
      FrameResult cfg (m0 :: m1 :: ver :: hi :: lo :: len :: (pay ++ rx :: tail))
        (.packet { version := ver, command := cmd, length := len, payload := pay, checksum := rx,
                   units := us })

/-! Draining (43_frame_extractor.md R174 to R182). -/

/-- At most one ORPHAN event, never an empty one (R176). -/
def orphanEvents (orphan : List Byte) : List Event :=
  if orphan = [] then [] else [.orphan orphan]

/-- A result of `decode_packet` as an event (R181). -/
def resultEvent : PacketResult → Event
  | .packet p => .packet p
  | .err e => .pktError e

/-- OP.DRAIN as a relation between BUF before, the events appended, and BUF after. -/
inductive Drained (cfg : Config) : List Byte → List Event → List Byte → Prop where
  /-- No marker: no event, BUF unchanged (R174). -/
  | idle {b : List Byte} (h : NoMarker b) : Drained cfg b [] b
  /-- The last marker: the whole remainder is the body and BUF becomes empty (R179). -/
  | eager {orphan body : List Byte} {r : PacketResult}
      (hm : FirstMarker (orphan ++ mark ++ body) orphan.length) (hn : NoMarker body)
      (hr : FrameResult cfg (mark ++ body) r) :
      Drained cfg (orphan ++ mark ++ body) (orphanEvents orphan ++ [resultEvent r]) []
  /-- A marker with another after it: the body ends where that one begins, which stays in BUF for the next
  iteration (R180). -/
  | bounded {orphan body rest b' : List Byte} {r : PacketResult} {evs : List Event}
      (hm : FirstMarker (orphan ++ mark ++ body ++ rest) orphan.length)
      (hn : FirstMarker (body ++ rest) body.length)
      (hr : FrameResult cfg (mark ++ body) r) (hd : Drained cfg rest evs b') :
      Drained cfg (orphan ++ mark ++ body ++ rest)
        (orphanEvents orphan ++ [resultEvent r] ++ evs) b'

/-- The events that are results of a decode attempt: PACKET or PKT_ERROR (R183). -/
def isResult : Event → Bool
  | .orphan _ => false
  | .packet _ => true
  | .pktError _ => true

/-! The block between operations. -/

/-- No working register holds a value (10_state.md R23, R37), nor does the marker detector (R35; assumption
log 4). -/
def Quiescent (s : State) : Prop :=
  s.fe = {} ∧ s.pd = {} ∧ s.du = {} ∧ s.md = none

/-- BUF respects a finite BUF_CAP (10_state.md R22, R39). -/
def WithinCap (s : State) : Prop :=
  ∀ cap, s.cfg.bufCap = some cap → s.buf.length ≤ cap

/-- What an event of EVQ can be: an ORPHAN holds at least one byte and no marker (10_state.md R34;
43_frame_extractor.md R176); a PACKET or PKT_ERROR is the result of decoding a candidate frame whose body
holds no marker (R181). -/
def EventOk (cfg : Config) : Event → Prop
  | .orphan b => b ≠ [] ∧ NoMarker b
  | .packet p => ∃ body, NoMarker body ∧ FrameResult cfg (mark ++ body) (.packet p)
  | .pktError e => ∃ body, NoMarker body ∧ FrameResult cfg (mark ++ body) (.err e)

/-- The invariant of the block between operations. -/
def Inv (s : State) : Prop :=
  Quiescent s ∧ WithinCap s ∧ ∀ e ∈ s.evq, EventOk s.cfg e

/-- Operations performed in order, stopping at the first that gets no next state. -/
def performs : List Instr → State → Host.Outcome State Fault Refusal
  | [], s => .next s
  | i :: rest, s =>
    match exec i s with
    | .next s' => performs rest s'
    | .fault f => .fault f
    | .refused r => .refused r

end Sys2Proof.Contract
end

