-- ==== Sys2Proof/Certificates/Slice0/Obligations.lean ====
section
/-! DEFINITION. The statements for the provers, family by family. `s.release` is `s` with no working register
holding a value (Machine/Ops.lean), the marker detector included (assumption log 4). A stand-alone call
answers through `ret`, the model's own return field (assumption log 3), and every such statement says that
nothing else changes. "Inferred in R<n>" marks a sentence the spec itself marks as derived. -/

open Sys2Proof Sys2Proof.Machine Sys2Proof.Contract

/-! Host operations. -/

/-- OP.RESET and power-up leave an empty buffer, an empty event queue and no value in any working register
(R240, R37); the parameters stay (R38). `Quiescent` also says that the marker detector holds no value: that is
the model's choice (assumption log 4), R37 giving it a value only at the start of a search. -/
def Obligations.ResetEmptiesBufferAndQueue : Prop :=
  (∀ s : State, ∃ t, exec .opReset s = .next t ∧ t.buf = [] ∧ t.evq = [] ∧ Quiescent t ∧ t.cfg = s.cfg) ∧
    State.reset.buf = [] ∧ State.reset.evq = [] ∧ Quiescent State.reset

/-- The whole state after OP.RESET. That the returned value is cleared and that the host's other requests stay
is the model's choice (assumption log 15). -/
def Obligations.ResetFrame : Prop :=
  ∀ s : State, exec .opReset s = .next { State.reset with cfg := s.cfg, pending := s.pending }

/-- The parameters at power-up: CKSUM_START 2, BUF_CAP and CHUNK_MAX unbounded (the spec's defaults, which
assumption logs 5 and 6 name as the model's choice among the open values). -/
def Obligations.ResetParameters : Prop :=
  State.reset.cfg = { cksumStart := .markerExcluded, bufCap := none, chunkMax := none }

/-- R173: the chunk is appended and nothing else changes; an empty chunk leaves everything unchanged; a push
past a finite BUF_CAP has no step. `s.fe = {}` is "no drain in progress". -/
def Obligations.PushAppendsItsChunk : Prop :=
  ∀ (s : State) (chunk : List Byte), s.fe = {} →
    (∀ m, s.cfg.chunkMax = some m → chunk.length ≤ m) →
    ((∀ cap, s.cfg.bufCap = some cap → s.buf.length + chunk.length ≤ cap) →
      exec (.opPush chunk) s = .next { s with buf := s.buf ++ chunk } ∧
        (chunk = [] → exec (.opPush chunk) s = .next s)) ∧
    (∀ cap, s.cfg.bufCap = some cap → cap < s.buf.length + chunk.length →
      exec (.opPush chunk) s = .refused .bufCapExceeded)

/-- R64: no push while a drain is in progress, told by the Frame Extractor's working registers (the model's
reading, assumption log 8). A chunk longer than a finite CHUNK_MAX is no operand of OP.PUSH (assumption log
6). -/
def Obligations.PushRefusedDuringDrainOrTooLong : Prop :=
  ∀ (s : State) (chunk : List Byte),
    (s.fe ≠ {} → exec (.opPush chunk) s = .refused .pushDuringDrain) ∧
    (∀ m, s.fe = {} → s.cfg.chunkMax = some m → m < chunk.length →
      exec (.opPush chunk) s = .refused .chunkTooLong)

/-- OP.DRAIN meets its contract: it completes in every state, appends to EVQ exactly the events the relation
`Drained` gives for BUF, leaves in BUF what that gives, and changes nothing else (R174 to R181). -/
def Obligations.DrainMeetsItsContract : Prop :=
  ∀ s : State, ∃ evs b', Drained s.cfg s.buf evs b' ∧
    exec .opDrain s = .next { s.release with buf := b', evq := s.evq ++ evs }

/-- The contract of OP.DRAIN gives one answer for each buffer. -/
def Obligations.DrainContractIsAFunction : Prop :=
  ∀ (cfg : Config) (b : List Byte) (evs evs' : List Event) (b1 b2 : List Byte),
    Drained cfg b evs b1 → Drained cfg b evs' b2 → evs = evs' ∧ b1 = b2

/-- BUF after OP.DRAIN, inferred in R182. -/
def Obligations.BufAfterDrain : Prop :=
  ∀ s : State, ∃ t, exec .opDrain s = .next t ∧
    (NoMarker s.buf → t.buf = s.buf ∧ t.evq = s.evq) ∧ (¬ NoMarker s.buf → t.buf = []) ∧
    NoMarker t.buf

/-- Inferred in R183: one decode attempt per marker occurrence, and every DRAIN_STEP shortens BUF by at least
2 bytes, so there are at most `len(BUF) div 2` of them. -/
def Obligations.OneDecodeAttemptPerMarker : Prop :=
  (∀ s : State, ∃ t evs, exec .opDrain s = .next t ∧ t.evq = s.evq ++ evs ∧
    (evs.filter isResult).length = markerCount s.buf ∧ markerCount s.buf ≤ s.buf.length / 2) ∧
  (∀ s t : State, drainStep s = .ok t → t.buf.length + 2 ≤ s.buf.length)

/-- Inferred in R188: of two adjacent markers the first gives FrameTooShort with raw `55 AA`, and the second
is then handled as if it began the buffer. -/
def Obligations.AdjacentMarkersGiveTooShort : Prop :=
  ∀ (s : State) (rest : List Byte), s.buf = mark ++ mark ++ rest →
    exec .opDrain s = exec .opDrain
      { s with buf := mark ++ rest, evq := s.evq ++ [.pktError (.frameTooShort mark)] }

/-- Inferred in R186: the bytes before the first marker go to one ORPHAN event, and what is decoded afterwards
is what would be decoded without them. -/
def Obligations.OrphanBytesStayOutOfPackets : Prop :=
  ∀ (s : State) (orphan rest : List Byte), orphan ≠ [] → s.buf = orphan ++ mark ++ rest →
    FirstMarker s.buf orphan.length →
    exec .opDrain s = exec .opDrain
      { s with buf := mark ++ rest, evq := s.evq ++ [.orphan orphan] }

/-- Inferred in R248: a cut of the stream changes nothing where BUF holds no marker at the drain or the chunk
pushed next begins with the marker; and some cut does change the events. For unbounded BUF_CAP and CHUNK_MAX:
with finite ones a push may be refused. -/
def Obligations.ChunkCutsThatChangeNothing : Prop :=
  (∀ (s : State) (a b : List Byte), s.fe = {} → s.cfg.bufCap = none → s.cfg.chunkMax = none →
    (NoMarker (s.buf ++ a) ∨ ∃ rest, b = mark ++ rest) →
    ∃ t, performs [.opPush a, .opDrain, .opPush b, .opDrain] s = .next t ∧
      performs [.opPush (a ++ b), .opDrain] s = .next t) ∧
  (∃ (a b : List Byte) (t u : State),
    performs [.opPush a, .opDrain, .opPush b, .opDrain] State.reset = .next t ∧
    performs [.opPush (a ++ b), .opDrain] State.reset = .next u ∧ t.evq ≠ u.evq)

/-- R185: several pushes before one drain give the result of one feed of the concatenated chunks. -/
def Obligations.SeveralPushesOneDrain : Prop :=
  ∀ (s : State) (a b : List Byte), s.fe = {} → s.cfg.bufCap = none → s.cfg.chunkMax = none →
    ∃ t, performs [.opPush a, .opPush b, .opDrain] s = .next t ∧
      performs [.opPush (a ++ b), .opDrain] s = .next t

/-- Inferred in R243: a marker split across chunks is lost when a marker was already in BUF: the 0x55 goes
into the last frame's body, and the next chunk, beginning with 0xAA and holding no marker, waits in BUF
without an event. -/
def Obligations.SplitMarkerIsLost : Prop :=
  ∀ (s : State) (a b : List Byte), s.fe = {} → s.cfg.bufCap = none → s.cfg.chunkMax = none →
    ¬ NoMarker (s.buf ++ a) → NoMarker (0xAA :: b) →
    ∃ t u, performs [.opPush (a ++ [0x55]), .opDrain] s = .next t ∧ t.buf = [] ∧
      performs [.opPush (0xAA :: b), .opDrain] t = .next u ∧ u.buf = 0xAA :: b ∧ u.evq = t.evq

/-! The whole block. -/

/-- R21: which operations change BUF, and how; no other instruction reads it. -/
def Obligations.OnlyPushDrainResetTouchBuf : Prop :=
  ∀ (i : Instr) (s t : State), exec i s = .next t →
    match i with
    | .opPush chunk => t.buf = s.buf ++ chunk
    | .opDrain => ∃ k, t.buf = s.buf.drop k
    | .opReset => t.buf = []
    | _ => t.buf = s.buf ∧ ∀ b, exec i { s with buf := b } = .next { t with buf := b }

/-- R34: events are only ever appended to EVQ, by OP.DRAIN alone; OP.RESET alone empties it. -/
def Obligations.EventsAreOnlyAppended : Prop :=
  ∀ (i : Instr) (s t : State), exec i s = .next t →
    match i with
    | .opReset => t.evq = []
    | .opDrain => ∃ evs, t.evq = s.evq ++ evs
    | _ => t.evq = s.evq

/-- R38: the parameters keep their values through every operation, OP.RESET included. -/
def Obligations.ParametersAreNeverWritten : Prop :=
  ∀ (i : Instr) (s t : State), exec i s = .next t → t.cfg = s.cfg

/-- R23: between operations a working register holds no value. Every instruction but OP.PUSH leaves them so
whatever they held; OP.PUSH writes none. R23 does not speak of the marker detector, which R35 does not keep
between operations: that it then holds no value is the model's choice (assumption log 4). -/
def Obligations.RegistersHoldNoValueAfterwards : Prop :=
  ∀ (i : Instr) (s t : State), exec i s = .next t →
    match i with
    | .opPush _ => t.fe = s.fe ∧ t.pd = s.pd ∧ t.du = s.du ∧ t.md = s.md
    | _ => Quiescent t

/-- R200: no instruction ever faults, every instruction but OP.PUSH completes in every state, and OP.PUSH
completes outside a drain with unbounded BUF_CAP and CHUNK_MAX. Finite caps: `PushAppendsItsChunk`. -/
def Obligations.EveryOperationIsTotal : Prop :=
  (∀ (i : Instr) (s : State) (f : Fault), exec i s ≠ .fault f) ∧
  (∀ (i : Instr) (s : State), (∀ chunk, i ≠ .opPush chunk) → ∃ t, exec i s = .next t) ∧
  (∀ (chunk : List Byte) (s : State), s.fe = {} → s.cfg.bufCap = none → s.cfg.chunkMax = none →
    ∃ t, exec (.opPush chunk) s = .next t)

/-- A step takes the host's oldest request, decodes it and runs exactly that instruction, the later requests
staying in line and no instruction touching them; with no request it changes nothing (assumption log 2);
operation code 11 gets no step (R97). -/
def Obligations.StepRunsTheDecodedInstruction : Prop :=
  (∀ (s : State) (r : Request) (rest : List Request) (i : Instr), s.pending = r :: rest →
    decode r = .ok i → step s = exec i { s with pending := rest }) ∧
  (∀ s : State, s.pending = [] → step s = .next s) ∧
  (∀ (s : State) (chunk : List Byte) (rest : List Request), s.pending = .hostOp 3 chunk :: rest →
    step s = .refused .reservedOpCode)

/-- No instruction adds, drops or reorders the host's requests (R61: one total order, the order of issue; the
queue itself is the model's, assumption log 2). -/
def Obligations.RequestsAreTheHostsAlone : Prop :=
  ∀ (i : Instr) (s t : State), exec i s = .next t → t.pending = s.pending

/-- Every step keeps the invariant: no working register holds a value, nor the marker detector (the model's
choice, assumption log 4), BUF respects BUF_CAP, and every event is a marker-free non-empty ORPHAN or the
result of decoding a candidate frame with a marker-free body. -/
def Obligations.StepKeepsTheInvariant : Prop :=
  ∀ s t : State, Inv s → step s = .next t → Inv t

/-- The state after reset meets the invariant. -/
def Obligations.ResetMeetsTheInvariant : Prop :=
  Inv State.reset

/-! Encoding. -/

/-- Decoding what encodes a well-formed instruction gives it back, every operand included. -/
def Obligations.DecodeOfEncode : Prop :=
  ∀ i : Instr, wellFormed i = true → decode (encode i) = .ok i

/-- A data unit followed by any bytes decodes to its instruction and those bytes, and whatever decodes is a
well-formed instruction whose encoding followed by the rest is what was decoded (R88, R92). -/
def Obligations.DataUnitsDecodeInSequence : Prop :=
  (∀ (id tag : Byte) (vlen : Half) (val rest : List Byte), val.length = vlen.toNat →
    decodeUnit (unitBytes id tag vlen val ++ rest) = .ok (unitInstr id tag vlen val, rest)) ∧
  (∀ (b rest : List Byte) (i : Instr), decodeUnit b = .ok (i, rest) →
    wellFormed i = true ∧ ∃ unit, encode i = .unit unit ∧ b = unit ++ rest)

/-- R90: the TYPE map is total over 0 to 255. -/
def Obligations.TypeByteSelectsTheCase : Prop :=
  ∀ (id tag : Byte) (vlen : Half) (val : List Byte),
    (tag = 0 → unitInstr id tag vlen val = .duRaw id vlen val) ∧
    (tag = 1 → unitInstr id tag vlen val = .duBool id vlen val) ∧
    (tag = 2 → unitInstr id tag vlen val = .duInt32 id vlen val) ∧
    (tag = 3 → unitInstr id tag vlen val = .duString id vlen val) ∧
    (tag = 4 → unitInstr id tag vlen val = .duEnum8 id vlen val) ∧
    (tag = 5 → unitInstr id tag vlen val = .duBitmap32 id vlen val) ∧
    (6 ≤ tag.toNat → unitInstr id tag vlen val = .duUnknown id tag vlen val)

/-- Words written out from the encoding tables decode to what they stand for: a minimal frame, a data-unit
header with ID 9 and VLEN 2 for TYPE 0, 2 and 255, and the host operations. The model's own are the zero
operand bytes above a word and the reading of 0x55AA as FRAME and not FIND_MARKER (assumption log 9, DEDUCED),
and the empty chunk of an OP.PUSH word (assumption log 10, DESIGN CHOICE). -/
def Obligations.TableWordsDecode : Prop :=
  decodeTableWord 16 0x55AA = some (.frame [0x55, 0xAA, 0, 0, 0, 0, 0]) ∧
  decodeTableWord 32 0x09000002 = some (.duRaw 9 2 [0, 0]) ∧
  decodeTableWord 32 0x09020002 = some (.duInt32 9 2 [0, 0]) ∧
  decodeTableWord 32 0x09FF0002 = some (.duUnknown 9 255 2 [0, 0]) ∧
  decodeTableWord 8 0 = some .opReset ∧ decodeTableWord 8 1 = some (.opPush []) ∧
  decodeTableWord 8 2 = some .opDrain ∧ decodeTableWord 8 3 = none

/-! FRAME. -/

/-- R150: `decode_packet` meets its contract: it answers the one result the steps give, and changes nothing
else. -/
def Obligations.FrameMeetsItsContract : Prop :=
  ∀ (f : List Byte) (s : State), ∃ r, FrameResult s.cfg f r ∧
    exec (.frame f) s = .next { s.release with ret := .result r }

/-- The contract of `decode_packet` gives one answer for each frame. -/
def Obligations.FrameContractIsAFunction : Prop :=
  ∀ (cfg : Config) (f : List Byte) (r r' : PacketResult),
    FrameResult cfg f r → FrameResult cfg f r' → r = r'

/-- R152: a frame shorter than 7 bytes. -/
def Obligations.ShortFrameIsTooShort : Prop :=
  ∀ (f : List Byte) (s : State), f.length < 7 →
    exec (.frame f) s = .next { s.release with ret := .result (.err (.frameTooShort f)) }

/-- R154: a frame of at least 7 bytes that is shorter than 6 + LEN + 1. -/
def Obligations.FrameBelowTotalMismatches : Prop :=
  ∀ (m0 m1 ver hi lo len : Byte) (rest : List Byte) (s : State),
    1 ≤ rest.length → rest.length < len.toNat + 1 →
    exec (.frame (m0 :: m1 :: ver :: hi :: lo :: len :: rest)) s = .next { s.release with
      ret := .result (.err (.payloadLengthMismatch (m0 :: m1 :: ver :: hi :: lo :: len :: rest))) }

/-- R157: the calculated and the received checksum differ; the error carries both and the whole frame. -/
def Obligations.WrongChecksumMismatches : Prop :=
  ∀ (m0 m1 ver hi lo len rx : Byte) (pay tail : List Byte) (s : State), pay.length = len.toNat →
    sumMod256 (covered s.cfg m0 m1 (ver :: hi :: lo :: len :: pay)) ≠ rx →
    exec (.frame (m0 :: m1 :: ver :: hi :: lo :: len :: (pay ++ rx :: tail))) s = .next { s.release with
      ret := .result (.err (.checksumMismatch
        (sumMod256 (covered s.cfg m0 m1 (ver :: hi :: lo :: len :: pay))) rx
        (m0 :: m1 :: ver :: hi :: lo :: len :: (pay ++ rx :: tail)))) }

/-- R158: otherwise a Packet with all fields populated, its units those DU.PARSE gives for the payload. -/
def Obligations.GoodFrameGivesItsPacket : Prop :=
  ∀ (m0 m1 ver hi lo len rx : Byte) (pay tail : List Byte) (s : State), pay.length = len.toNat →
    sumMod256 (covered s.cfg m0 m1 (ver :: hi :: lo :: len :: pay)) = rx →
    ∃ us, exec (.duParse pay) s = .next { s.release with ret := .units us } ∧
      exec (.frame (m0 :: m1 :: ver :: hi :: lo :: len :: (pay ++ rx :: tail))) s = .next { s.release with
        ret := .result (.packet { version := ver, command := BitVec.ofNat 16 (hi.toNat * 256 + lo.toNat),
                                  length := len, payload := pay, checksum := rx, units := us }) }

/-- R159: bytes after TOTAL do not influence an accepted frame's result. -/
def Obligations.TrailingBytesAreIgnored : Prop :=
  ∀ (f tail : List Byte) (s t : State) (p : Packet), exec (.frame f) s = .next t →
    t.ret = .result (.packet p) → exec (.frame (f ++ tail)) s = .next t

/-- R26: the two invariants of every Packet `decode_packet` returns. -/
def Obligations.PacketInvariants : Prop :=
  ∀ (f : List Byte) (s t : State) (p : Packet), exec (.frame f) s = .next t →
    t.ret = .result (.packet p) → p.payload.length = p.length.toNat ∧
      p.checksum = sumMod256 ((f.take (6 + p.length.toNat)).drop (cksumOffset s.cfg.cksumStart))

/-- R161: a frame built from (version, command, payload) with its checksum decodes to those fields. -/
def Obligations.FrameRoundTrip : Prop :=
  ∀ (ver : Byte) (cmd : Half) (payload : List Byte) (s : State), payload.length ≤ 255 →
    ∀ ck, ck = sumMod256 ((frameHead ver cmd payload).drop (cksumOffset s.cfg.cksumStart)) →
    ∃ us, exec (.duParse payload) s = .next { s.release with ret := .units us } ∧
      exec (.frame (frameHead ver cmd payload ++ [ck])) s = .next { s.release with
        ret := .result (.packet { version := ver, command := cmd,
                                  length := BitVec.ofNat 8 payload.length, payload := payload,
                                  checksum := ck, units := us }) }

/-- R162, inferred there for the bytes outside the payload: changing exactly one byte of an accepted frame
among VERSION, COMMAND, PAYLOAD and CHECKSUM makes `decode_packet` report ChecksumMismatch. `k` is the frame
offset of the byte; offset 5 is LEN. -/
def Obligations.SingleByteCorruptionIsDetected : Prop :=
  ∀ (f : List Byte) (s t : State) (p : Packet) (k : Nat) (x : Byte), exec (.frame f) s = .next t →
    t.ret = .result (.packet p) → 2 ≤ k → k ≠ 5 → k ≤ 6 + p.length.toNat → f[k]? ≠ some x →
    ∃ ckCalc ckRx, ckCalc ≠ ckRx ∧ exec (.frame (f.set k x)) s = .next { s.release with
      ret := .result (.err (.checksumMismatch ckCalc ckRx (f.set k x))) }

/-- R203: HeaderUnparsable, code 2, is produced by no algorithm. -/
def Obligations.HeaderUnparsableIsNeverProduced : Prop :=
  errCode (some .headerUnparsable) = 2 ∧
  (∀ (f raw : List Byte) (s t : State), exec (.frame f) s = .next t →
    t.ret ≠ .result (.err (.headerUnparsable raw))) ∧
  (∀ (p raw : List Byte) (us : List UnitResult) (s t : State), exec (.duParse p) s = .next t →
    t.ret = .units us → .err (.headerUnparsable raw) ∉ us) ∧
  (∀ (raw : List Byte) (s t : State), exec .opDrain s = .next t →
    .pktError (.headerUnparsable raw) ∈ t.evq → .pktError (.headerUnparsable raw) ∈ s.evq)

/-! Data units. Each answers one DataUnit, which keeps the header fields and the raw value (R134). -/

/-- R127. -/
def Obligations.RawValue : Prop :=
  ∀ (id : Byte) (vlen : Half) (val : List Byte) (s : State),
    exec (.duRaw id vlen val) s = .next { s.release with
      ret := .units [.unit { id := id, tag := 0, vlen := vlen, value := .rawV val, raw := val }] }

/-- R128: true exactly for the one byte 0x01, and never an error. -/
def Obligations.BoolValue : Prop :=
  ∀ (id : Byte) (vlen : Half) (val : List Byte) (s : State),
    exec (.duBool id vlen val) s = .next { s.release with
      ret := .units [.unit { id := id, tag := 1, vlen := vlen, value := .boolV (decide (val = [1])),
                             raw := val }] }

/-- R129: four bytes, big-endian signed; any other width is an error variant. "Signed" is two's complement,
from general knowledge (R12, D10; assumption log 12). -/
def Obligations.Int32Value : Prop :=
  (∀ (id : Byte) (vlen : Half) (a b c d : Byte) (s : State) (u : Nat),
    u = a.toNat * 2 ^ 24 + b.toNat * 2 ^ 16 + c.toNat * 2 ^ 8 + d.toNat →
    exec (.duInt32 id vlen [a, b, c, d]) s = .next { s.release with
      ret := .units [.unit { id := id, tag := 2, vlen := vlen,
                             value := .int32V (if u < 2 ^ 31 then (u : Int) else (u : Int) - 2 ^ 32),
                             raw := [a, b, c, d] }] }) ∧
  (∀ (id : Byte) (vlen : Half) (val : List Byte) (s : State), val.length ≠ 4 →
    exec (.duInt32 id vlen val) s = .next { s.release with
      ret := .units [.unit { id := id, tag := 2, vlen := vlen, value := .errTypeLength 4, raw := val }] })

/-- R130 with the filter R138 fixes (D9; assumption log 7): the kept bytes are those the scan of R138 keeps;
they are well-formed text and a subsequence of the value, and a value that is well-formed text is kept whole.
-/
def Obligations.StringValue : Prop :=
  ∀ (id : Byte) (vlen : Half) (val : List Byte) (s : State), ∃ kept,
    exec (.duString id vlen val) s = .next { s.release with
      ret := .units [.unit { id := id, tag := 3, vlen := vlen, value := .strV kept, raw := val }] } ∧
    Utf8Kept val kept ∧ Utf8Text kept ∧ kept.Sublist val ∧ (Utf8Text val → kept = val)

/-- R131: one byte, unsigned; any other width is an error variant. -/
def Obligations.Enum8Value : Prop :=
  (∀ (id : Byte) (vlen : Half) (a : Byte) (s : State),
    exec (.duEnum8 id vlen [a]) s = .next { s.release with
      ret := .units [.unit { id := id, tag := 4, vlen := vlen, value := .enum8V a, raw := [a] }] }) ∧
  (∀ (id : Byte) (vlen : Half) (val : List Byte) (s : State), val.length ≠ 1 →
    exec (.duEnum8 id vlen val) s = .next { s.release with
      ret := .units [.unit { id := id, tag := 4, vlen := vlen, value := .errTypeLength 1, raw := val }] })

/-- R132: four bytes, big-endian unsigned; any other width is an error variant. Bit `k` of the bitmap is bit
`k mod 8` of byte `VAL[3 - k div 8]`, inferred in R132. -/
def Obligations.Bitmap32Value : Prop :=
  (∀ (id : Byte) (vlen : Half) (a b c d : Byte) (s : State), ∃ n : Word,
    exec (.duBitmap32 id vlen [a, b, c, d]) s = .next { s.release with
      ret := .units [.unit { id := id, tag := 5, vlen := vlen, value := .bitmap32V n,
                             raw := [a, b, c, d] }] } ∧
    n.toNat = a.toNat * 2 ^ 24 + b.toNat * 2 ^ 16 + c.toNat * 2 ^ 8 + d.toNat ∧
    ∀ k < 32, ∀ x, [a, b, c, d][3 - k / 8]? = some x → n.getLsbD k = x.getLsbD (k % 8)) ∧
  (∀ (id : Byte) (vlen : Half) (val : List Byte) (s : State), val.length ≠ 4 →
    exec (.duBitmap32 id vlen val) s = .next { s.release with
      ret := .units [.unit { id := id, tag := 5, vlen := vlen, value := .errTypeLength 4, raw := val }] })

/-- R133: TYPE 6 to 255, always the error variant; the DataUnit keeps the TYPE byte. -/
def Obligations.UnknownValue : Prop :=
  ∀ (id tag : Byte) (vlen : Half) (val : List Byte) (s : State), 6 ≤ tag.toNat →
    exec (.duUnknown id tag vlen val) s = .next { s.release with
      ret := .units [.unit { id := id, tag := tag, vlen := vlen, value := .errUnknownType, raw := val }] }

/-- R121: DU.PARSE meets its contract: it completes for every payload, answers the units the relation
`Records` gives, and changes nothing else. -/
def Obligations.ParseMeetsItsContract : Prop :=
  ∀ (p : List Byte) (s : State), ∃ us, Records p us ∧
    exec (.duParse p) s = .next { s.release with ret := .units us }

/-- The contract of DU.PARSE gives one answer for each payload. -/
def Obligations.RecordsContractIsAFunction : Prop :=
  ∀ (p : List Byte) (us us' : List UnitResult), Records p us → Records p us' → us = us'

/-- R122: after complete records, 1 to 3 remaining bytes give DataUnitHeaderTruncated with exactly those
bytes, last; the units before it stay unchanged. -/
def Obligations.CutHeaderEndsTheUnits : Prop :=
  ∀ (p cut : List Byte) (us : List UnitResult) (s : State),
    exec (.duParse p) s = .next { s.release with ret := .units us } → (∀ e, .err e ∉ us) →
    1 ≤ cut.length → cut.length < 4 →
    exec (.duParse (p ++ cut)) s
      = .next { s.release with ret := .units (us ++ [.err (.dataUnitHeaderTruncated cut)]) }

/-- R124: after complete records, a header whose VLEN exceeds the bytes that follow gives
DataUnitValueTruncated with the header and those bytes, last, whatever TYPE is. -/
def Obligations.CutValueEndsTheUnits : Prop :=
  ∀ (p rest : List Byte) (id tag hi lo : Byte) (us : List UnitResult) (s : State),
    exec (.duParse p) s = .next { s.release with ret := .units us } → (∀ e, .err e ∉ us) →
    rest.length < hi.toNat * 256 + lo.toNat →
    exec (.duParse (p ++ id :: tag :: hi :: lo :: rest)) s = .next { s.release with
      ret := .units (us ++ [.err (.dataUnitValueTruncated (id :: tag :: hi :: lo :: rest))]) }

/-- R137: complete records never change how later ones are parsed. -/
def Obligations.LaterUnitsAreUnaffected : Prop :=
  ∀ (p q : List Byte) (us us' : List UnitResult) (s : State),
    exec (.duParse p) s = .next { s.release with ret := .units us } → (∀ e, .err e ∉ us) →
    exec (.duParse q) s = .next { s.release with ret := .units us' } →
    exec (.duParse (p ++ q)) s = .next { s.release with ret := .units (us ++ us') }

/-- R29, R31, R135, and the tiling inferred in R139: the result is DataUnits, each with as many raw bytes as
VLEN declares, and at most one error, last; without one the units tile the payload exactly; there are at most
`len(PAY) div 4`. -/
def Obligations.UnitsTileThePayload : Prop :=
  ∀ (p : List Byte) (us : List UnitResult) (s : State),
    exec (.duParse p) s = .next { s.release with ret := .units us } →
    ∃ (ds : List DataUnit) (es : List DecodeError), us = ds.map .unit ++ es.map .err ∧ es.length ≤ 1 ∧
      (∀ d ∈ ds, d.raw.length = d.vlen.toNat) ∧ ds.length ≤ p.length / 4 ∧
      (es = [] → (ds.map (fun d => 4 + d.vlen.toNat)).sum = p.length)

/-- Inferred in R139 (and R245): in a payload of at most 255 bytes no unit with VLEN above 251 completes. -/
def Obligations.LongValuesNeverComplete : Prop :=
  ∀ (p : List Byte) (us : List UnitResult) (d : DataUnit) (s : State), p.length ≤ 255 →
    exec (.duParse p) s = .next { s.release with ret := .units us } → .unit d ∈ us →
    d.vlen.toNat ≤ 251

/-- A data unit performed on its own and DU.PARSE of its bytes are the same operation. That a lone unit is
answered as one record of DU.PARSE is the model's choice (assumption log 3). -/
def Obligations.LoneUnitIsItsPayload : Prop :=
  ∀ (b : List Byte) (i : Instr) (s : State), decodeUnit b = .ok (i, []) →
    exec i s = exec (.duParse b) s

/-! CHECKSUM. -/

/-- R111: the sum modulo 256, for every byte sequence, the empty one included. -/
def Obligations.ChecksumIsTheSumMod256 : Prop :=
  ∀ (b : List Byte) (s : State), ∃ c : Byte,
    exec (.checksum b) s = .next { s.release with ret := .byte c } ∧
    c.toNat = (b.map BitVec.toNat).sum % 256 ∧ c.toNat ≤ 255

/-- Inferred in R112: an 8-bit accumulator gives the same result, and the checksum of a concatenation is the
8-bit sum of the checksums. -/
def Obligations.EightBitAccumulatorSuffices : Prop :=
  ∀ (a b : List Byte) (s : State),
    exec (.checksum b) s = .next { s.release with ret := .byte (b.foldl (· + ·) 0) } ∧
    exec (.checksum (a ++ b)) s = .next { s.release with
      ret := .byte (a.foldl (· + ·) 0 + b.foldl (· + ·) 0) }

/-- Inferred in R114: the marker adds 0xFF; changing one byte changes the checksum; changing two bytes by
opposite amounts does not. -/
def Obligations.ChecksumDetectsOneByteNotTwo : Prop :=
  (∀ b : List Byte, checksumOf (mark ++ b) = checksumOf b + 0xFF) ∧
  (∀ (b : List Byte) (k : Nat) (x y : Byte), b[k]? = some y → x ≠ y →
    checksumOf (b.set k x) ≠ checksumOf b) ∧
  (∀ (b : List Byte) (j k : Nat) (x y x' y' : Byte), j ≠ k → b[j]? = some x → b[k]? = some y →
    x'.toNat + y'.toNat = x.toNat + y.toNat →
    checksumOf ((b.set j x').set k y') = checksumOf b)

/-! FIND_MARKER. -/

/-- R171: the least index at which 55 AA begins, or NONE when there is none. -/
def Obligations.FindMarkerGivesTheFirst : Prop :=
  ∀ (b : List Byte) (s : State), ∃ r, exec (.findMarker b) s = .next { s.release with ret := .index r } ∧
    (∀ i, r = some i ↔ FirstMarker b i) ∧ (r = none ↔ NoMarker b)
end

