-- ==== Sys2Proof/Laws/State.lean ====
section
/-! SUPPORT. One lemma per field of State per update of Ops.lean, true by rfl, and the two steps of the Except
monad, so that no proof unfolds a record update or a bind. -/

namespace Sys2Proof.Machine

@[simp] theorem State.withBuf_cfg (s : State) (x : List Byte) : (s.withBuf x).cfg = s.cfg := rfl
@[simp] theorem State.withBuf_buf (s : State) (x : List Byte) : (s.withBuf x).buf = x := rfl
@[simp] theorem State.withBuf_evq (s : State) (x : List Byte) : (s.withBuf x).evq = s.evq := rfl
@[simp] theorem State.withBuf_fe (s : State) (x : List Byte) : (s.withBuf x).fe = s.fe := rfl
@[simp] theorem State.withBuf_pd (s : State) (x : List Byte) : (s.withBuf x).pd = s.pd := rfl
@[simp] theorem State.withBuf_du (s : State) (x : List Byte) : (s.withBuf x).du = s.du := rfl
@[simp] theorem State.withBuf_md (s : State) (x : List Byte) : (s.withBuf x).md = s.md := rfl
@[simp] theorem State.withBuf_ret (s : State) (x : List Byte) : (s.withBuf x).ret = s.ret := rfl
@[simp] theorem State.withBuf_pending (s : State) (x : List Byte) : (s.withBuf x).pending = s.pending := rfl

@[simp] theorem State.emit_cfg (s : State) (x : Event) : (s.emit x).cfg = s.cfg := rfl
@[simp] theorem State.emit_buf (s : State) (x : Event) : (s.emit x).buf = s.buf := rfl
@[simp] theorem State.emit_evq (s : State) (x : Event) : (s.emit x).evq = s.evq ++ [x] := rfl
@[simp] theorem State.emit_fe (s : State) (x : Event) : (s.emit x).fe = s.fe := rfl
@[simp] theorem State.emit_pd (s : State) (x : Event) : (s.emit x).pd = s.pd := rfl
@[simp] theorem State.emit_du (s : State) (x : Event) : (s.emit x).du = s.du := rfl
@[simp] theorem State.emit_md (s : State) (x : Event) : (s.emit x).md = s.md := rfl
@[simp] theorem State.emit_ret (s : State) (x : Event) : (s.emit x).ret = s.ret := rfl
@[simp] theorem State.emit_pending (s : State) (x : Event) : (s.emit x).pending = s.pending := rfl

@[simp] theorem State.clearEvents_cfg (s : State) : (s.clearEvents).cfg = s.cfg := rfl
@[simp] theorem State.clearEvents_buf (s : State) : (s.clearEvents).buf = s.buf := rfl
@[simp] theorem State.clearEvents_evq (s : State) : (s.clearEvents).evq = [] := rfl
@[simp] theorem State.clearEvents_fe (s : State) : (s.clearEvents).fe = s.fe := rfl
@[simp] theorem State.clearEvents_pd (s : State) : (s.clearEvents).pd = s.pd := rfl
@[simp] theorem State.clearEvents_du (s : State) : (s.clearEvents).du = s.du := rfl
@[simp] theorem State.clearEvents_md (s : State) : (s.clearEvents).md = s.md := rfl
@[simp] theorem State.clearEvents_ret (s : State) : (s.clearEvents).ret = s.ret := rfl
@[simp] theorem State.clearEvents_pending (s : State) : (s.clearEvents).pending = s.pending := rfl

@[simp] theorem State.withFe_cfg (s : State) (x : FeRegs) : (s.withFe x).cfg = s.cfg := rfl
@[simp] theorem State.withFe_buf (s : State) (x : FeRegs) : (s.withFe x).buf = s.buf := rfl
@[simp] theorem State.withFe_evq (s : State) (x : FeRegs) : (s.withFe x).evq = s.evq := rfl
@[simp] theorem State.withFe_fe (s : State) (x : FeRegs) : (s.withFe x).fe = x := rfl
@[simp] theorem State.withFe_pd (s : State) (x : FeRegs) : (s.withFe x).pd = s.pd := rfl
@[simp] theorem State.withFe_du (s : State) (x : FeRegs) : (s.withFe x).du = s.du := rfl
@[simp] theorem State.withFe_md (s : State) (x : FeRegs) : (s.withFe x).md = s.md := rfl
@[simp] theorem State.withFe_ret (s : State) (x : FeRegs) : (s.withFe x).ret = s.ret := rfl
@[simp] theorem State.withFe_pending (s : State) (x : FeRegs) : (s.withFe x).pending = s.pending := rfl

@[simp] theorem State.withPd_cfg (s : State) (x : PdRegs) : (s.withPd x).cfg = s.cfg := rfl
@[simp] theorem State.withPd_buf (s : State) (x : PdRegs) : (s.withPd x).buf = s.buf := rfl
@[simp] theorem State.withPd_evq (s : State) (x : PdRegs) : (s.withPd x).evq = s.evq := rfl
@[simp] theorem State.withPd_fe (s : State) (x : PdRegs) : (s.withPd x).fe = s.fe := rfl
@[simp] theorem State.withPd_pd (s : State) (x : PdRegs) : (s.withPd x).pd = x := rfl
@[simp] theorem State.withPd_du (s : State) (x : PdRegs) : (s.withPd x).du = s.du := rfl
@[simp] theorem State.withPd_md (s : State) (x : PdRegs) : (s.withPd x).md = s.md := rfl
@[simp] theorem State.withPd_ret (s : State) (x : PdRegs) : (s.withPd x).ret = s.ret := rfl
@[simp] theorem State.withPd_pending (s : State) (x : PdRegs) : (s.withPd x).pending = s.pending := rfl

@[simp] theorem State.withDu_cfg (s : State) (x : DuRegs) : (s.withDu x).cfg = s.cfg := rfl
@[simp] theorem State.withDu_buf (s : State) (x : DuRegs) : (s.withDu x).buf = s.buf := rfl
@[simp] theorem State.withDu_evq (s : State) (x : DuRegs) : (s.withDu x).evq = s.evq := rfl
@[simp] theorem State.withDu_fe (s : State) (x : DuRegs) : (s.withDu x).fe = s.fe := rfl
@[simp] theorem State.withDu_pd (s : State) (x : DuRegs) : (s.withDu x).pd = s.pd := rfl
@[simp] theorem State.withDu_du (s : State) (x : DuRegs) : (s.withDu x).du = x := rfl
@[simp] theorem State.withDu_md (s : State) (x : DuRegs) : (s.withDu x).md = s.md := rfl
@[simp] theorem State.withDu_ret (s : State) (x : DuRegs) : (s.withDu x).ret = s.ret := rfl
@[simp] theorem State.withDu_pending (s : State) (x : DuRegs) : (s.withDu x).pending = s.pending := rfl

@[simp] theorem State.withMd_cfg (s : State) (x : Option MdState) : (s.withMd x).cfg = s.cfg := rfl
@[simp] theorem State.withMd_buf (s : State) (x : Option MdState) : (s.withMd x).buf = s.buf := rfl
@[simp] theorem State.withMd_evq (s : State) (x : Option MdState) : (s.withMd x).evq = s.evq := rfl
@[simp] theorem State.withMd_fe (s : State) (x : Option MdState) : (s.withMd x).fe = s.fe := rfl
@[simp] theorem State.withMd_pd (s : State) (x : Option MdState) : (s.withMd x).pd = s.pd := rfl
@[simp] theorem State.withMd_du (s : State) (x : Option MdState) : (s.withMd x).du = s.du := rfl
@[simp] theorem State.withMd_md (s : State) (x : Option MdState) : (s.withMd x).md = x := rfl
@[simp] theorem State.withMd_ret (s : State) (x : Option MdState) : (s.withMd x).ret = s.ret := rfl
@[simp] theorem State.withMd_pending (s : State) (x : Option MdState) : (s.withMd x).pending = s.pending := rfl

@[simp] theorem State.withRet_cfg (s : State) (x : Ret) : (s.withRet x).cfg = s.cfg := rfl
@[simp] theorem State.withRet_buf (s : State) (x : Ret) : (s.withRet x).buf = s.buf := rfl
@[simp] theorem State.withRet_evq (s : State) (x : Ret) : (s.withRet x).evq = s.evq := rfl
@[simp] theorem State.withRet_fe (s : State) (x : Ret) : (s.withRet x).fe = s.fe := rfl
@[simp] theorem State.withRet_pd (s : State) (x : Ret) : (s.withRet x).pd = s.pd := rfl
@[simp] theorem State.withRet_du (s : State) (x : Ret) : (s.withRet x).du = s.du := rfl
@[simp] theorem State.withRet_md (s : State) (x : Ret) : (s.withRet x).md = s.md := rfl
@[simp] theorem State.withRet_ret (s : State) (x : Ret) : (s.withRet x).ret = x := rfl
@[simp] theorem State.withRet_pending (s : State) (x : Ret) : (s.withRet x).pending = s.pending := rfl

@[simp] theorem State.withPending_cfg (s : State) (x : List Request) : (s.withPending x).cfg = s.cfg := rfl
@[simp] theorem State.withPending_buf (s : State) (x : List Request) : (s.withPending x).buf = s.buf := rfl
@[simp] theorem State.withPending_evq (s : State) (x : List Request) : (s.withPending x).evq = s.evq := rfl
@[simp] theorem State.withPending_fe (s : State) (x : List Request) : (s.withPending x).fe = s.fe := rfl
@[simp] theorem State.withPending_pd (s : State) (x : List Request) : (s.withPending x).pd = s.pd := rfl
@[simp] theorem State.withPending_du (s : State) (x : List Request) : (s.withPending x).du = s.du := rfl
@[simp] theorem State.withPending_md (s : State) (x : List Request) : (s.withPending x).md = s.md := rfl
@[simp] theorem State.withPending_ret (s : State) (x : List Request) : (s.withPending x).ret = s.ret := rfl
@[simp] theorem State.withPending_pending (s : State) (x : List Request) : (s.withPending x).pending = x := rfl

@[simp] theorem State.release_cfg (s : State) : (s.release).cfg = s.cfg := rfl
@[simp] theorem State.release_buf (s : State) : (s.release).buf = s.buf := rfl
@[simp] theorem State.release_evq (s : State) : (s.release).evq = s.evq := rfl
@[simp] theorem State.release_fe (s : State) : (s.release).fe = {} := rfl
@[simp] theorem State.release_pd (s : State) : (s.release).pd = {} := rfl
@[simp] theorem State.release_du (s : State) : (s.release).du = {} := rfl
@[simp] theorem State.release_md (s : State) : (s.release).md = none := rfl
@[simp] theorem State.release_ret (s : State) : (s.release).ret = s.ret := rfl
@[simp] theorem State.release_pending (s : State) : (s.release).pending = s.pending := rfl

@[simp] theorem ok_bind {α β : Type} (a : α) (f : α → Except Fault β) :
    ((Except.ok a : Except Fault α) >>= f) = f a := rfl

@[simp] theorem error_bind {α β : Type} (e : Fault) (f : α → Except Fault β) :
    ((Except.error e : Except Fault α) >>= f) = .error e := rfl

@[simp] theorem readReg_some {α : Type} (a : α) : readReg (some a) = .ok a := rfl

@[simp] theorem markerIndex_some (i : Nat) : markerIndex (some i) = .ok i := rfl

theorem byteAt_eq {b : List Byte} {i : Nat} {x : Byte} (h : b[i]? = some x) : byteAt b i = .ok x := by
  simp [byteAt, h]

theorem slice_eq {b : List Byte} {i j : Nat} (h : i ≤ j) (h' : j ≤ b.length) :
    slice b i j = .ok ((b.drop i).take (j - i)) := by
  simp [slice, h, h']

/-! The conditions of Flags.lean, with the constants they compare against as numbers. -/

theorem frameTooShort_iff (f : List Byte) : frameTooShort f = true ↔ f.length < 7 := by
  unfold frameTooShort; rw [decide_eq_true_iff]; rfl

theorem belowTotal_iff (f : List Byte) (t : BitVec 9) : belowTotal f t = true ↔ f.length < t.toNat := by
  simp [belowTotal]

theorem headerTruncated_iff (p : List Byte) (c : Nat) : headerTruncated p c = true ↔ p.length - c < 4 := by
  unfold headerTruncated; rw [decide_eq_true_iff]; rfl

theorem valueTruncated_iff (p : List Byte) (c : Nat) (v : Half) :
    valueTruncated p c v = true ↔ p.length - c < v.toNat := by
  simp [valueTruncated]

theorem drainInProgress_iff (s : State) : drainInProgress s = true ↔ s.fe ≠ {} := by
  simp [drainInProgress]

theorem within_iff (n : Nat) (o : Option Nat) : within n o = true ↔ ∀ cap, o = some cap → n ≤ cap := by
  cases o <;> simp [within]

/-- Releasing the working registers forgets whatever they held. -/
@[simp] theorem State.release_withFe (s : State) (x : FeRegs) : (s.withFe x).release = s.release := rfl
@[simp] theorem State.release_withPd (s : State) (x : PdRegs) : (s.withPd x).release = s.release := rfl
@[simp] theorem State.release_withDu (s : State) (x : DuRegs) : (s.withDu x).release = s.release := rfl
@[simp] theorem State.release_withMd (s : State) (x : Option MdState) : (s.withMd x).release = s.release := rfl
@[simp] theorem State.release_release (s : State) : s.release.release = s.release := rfl

end Sys2Proof.Machine
end

