-- ==== Sys2Proof/Laws/Ops.lean ====
section
/-! SUPPORT. One lemma per shared operation, saying once everything it can do: the readings of a value, the marker
search, DU.PARSE, `decode_packet`, DRAIN_STEP and the drain loop meet the contracts of Safety.lean and touch
nothing else. -/

namespace Sys2Proof.Machine

open Sys2Proof.Contract

/-! Operand readings. -/

theorem checksumOf_eq (b : List Byte) : checksumOf b = sumMod256 b := by
  have h : ∀ (l : List Byte) (n : Nat),
      l.foldl (fun s x => s + x.toNat) n = n + (l.map BitVec.toNat).sum := by
    intro l
    induction l with
    | nil => simp
    | cons x xs ih => intro n; simp [ih, Nat.add_assoc]
  simp only [checksumOf, sumMod256, h, Nat.zero_add]
  apply BitVec.eq_of_toNat_eq
  simp

theorem be16_toNat (hi lo : Byte) : (be16 hi lo).toNat = hi.toNat * 256 + lo.toNat := by
  have := hi.isLt; have := lo.isLt
  simp only [be16, BitVec.toNat_ofNat]; omega

theorem be32u_toNat (a b c d : Byte) :
    (be32u a b c d).toNat = a.toNat * 2 ^ 24 + b.toNat * 2 ^ 16 + c.toNat * 2 ^ 8 + d.toNat := by
  have := a.isLt; have := b.isLt; have := c.isLt; have := d.isLt
  simp only [be32u, BitVec.toNat_ofNat]; omega

/-- The bytes have the given shape, range by range. -/
def HasShape (shape : List (Nat × Nat)) (q : List Byte) : Prop :=
  List.Forall₂ (fun r x => InRange r.1 r.2 x) shape q

theorem beginsWithShape_iff (shape : List (Nat × Nat)) (b : List Byte) :
    beginsWithShape shape b = true ↔ HasShape shape (b.take shape.length) := by
  induction shape generalizing b with
  | nil => simp [beginsWithShape, HasShape]
  | cons r rs ih =>
    cases b with
    | nil => simp [beginsWithShape, HasShape]
    | cons x xs => simp [beginsWithShape, HasShape, InRange, ih, and_assoc]

theorem utf8Sequence_iff (q : List Byte) :
    Utf8Sequence q ↔ ∃ shape ∈ utf8Shapes, HasShape shape q := by
  constructor
  · intro h
    cases h <;> simp_all [utf8Shapes, HasShape]
  · rintro ⟨shape, hm, h⟩
    simp only [utf8Shapes, List.mem_cons, List.not_mem_nil, or_false] at hm
    rcases hm with rfl | rfl | rfl | rfl | rfl | rfl | rfl | rfl | rfl <;>
      simp only [HasShape, List.forall₂_cons_left_iff, List.forall₂_nil_left_iff] at h
    · obtain ⟨a, _, ha, rfl, rfl⟩ := h
      exact .one ha
    · obtain ⟨a, _, ha, ⟨b, _, hb, rfl, rfl⟩, rfl⟩ := h
      exact .two ha hb
    · obtain ⟨a, _, ha, ⟨b, _, hb, ⟨c, _, hc, rfl, rfl⟩, rfl⟩, rfl⟩ := h
      exact .threeE0 ha hb hc
    · obtain ⟨a, _, ha, ⟨b, _, hb, ⟨c, _, hc, rfl, rfl⟩, rfl⟩, rfl⟩ := h
      exact .threeE1 ha hb hc
    · obtain ⟨a, _, ha, ⟨b, _, hb, ⟨c, _, hc, rfl, rfl⟩, rfl⟩, rfl⟩ := h
      exact .threeED ha hb hc
    · obtain ⟨a, _, ha, ⟨b, _, hb, ⟨c, _, hc, rfl, rfl⟩, rfl⟩, rfl⟩ := h
      exact .threeEE ha hb hc
    · obtain ⟨a, _, ha, ⟨b, _, hb, ⟨c, _, hc, ⟨d, _, hd, rfl, rfl⟩, rfl⟩, rfl⟩, rfl⟩ := h
      exact .fourF0 ha hb hc hd
    · obtain ⟨a, _, ha, ⟨b, _, hb, ⟨c, _, hc, ⟨d, _, hd, rfl, rfl⟩, rfl⟩, rfl⟩, rfl⟩ := h
      exact .fourF1 ha hb hc hd
    · obtain ⟨a, _, ha, ⟨b, _, hb, ⟨c, _, hc, ⟨d, _, hd, rfl, rfl⟩, rfl⟩, rfl⟩, rfl⟩ := h
      exact .fourF4 ha hb hc hd

/-- A well-formed sequence of the length found begins the bytes, and where none is found none begins them. -/
theorem utf8SequenceLength_spec (b : List Byte) :
    match utf8SequenceLength b with
    | some n => 0 < n ∧ n ≤ b.length ∧ Utf8Sequence (b.take n)
    | none => ∀ q tail, b = q ++ tail → ¬ Utf8Sequence q := by
  unfold utf8SequenceLength
  cases hf : utf8Shapes.find? (fun shape => beginsWithShape shape b) with
  | none =>
    intro q tail hb hq
    obtain ⟨shape, hm, hs⟩ := (utf8Sequence_iff q).1 hq
    have hl : shape.length = q.length := List.Forall₂.length_eq hs
    refine List.find?_eq_none.1 hf shape hm ((beginsWithShape_iff shape b).2 ?_)
    rw [hb, hl, List.take_left']
    · exact hs
    · rfl
  | some shape =>
    have hm := List.mem_of_find?_eq_some hf
    have hs := (beginsWithShape_iff shape b).1 (by simpa using List.find?_some hf)
    have hl := List.Forall₂.length_eq hs
    refine ⟨?_, ?_, (utf8Sequence_iff _).2 ⟨shape, hm, hs⟩⟩
    · have : ∀ sh ∈ utf8Shapes, 0 < sh.length := by decide
      exact this shape hm
    · simp only [List.length_take] at hl; omega

/-- UTF8_FILTER keeps what R138 says it keeps. -/
theorem utf8Filter_spec (b : List Byte) : Utf8Kept b (utf8Filter b) := by
  have h : ∀ (k : Nat) (b : List Byte), b.length ≤ k → Utf8Kept b (utf8Scan k b) := by
    intro k
    induction k with
    | zero => intro b hb; cases b <;> simp_all [utf8Scan, Utf8Kept.done]
    | succ k ih =>
      intro b hb
      cases b with
      | nil => exact .done
      | cons x xs =>
        have hs := utf8SequenceLength_spec (x :: xs)
        unfold utf8Scan
        cases hn : utf8SequenceLength (x :: xs) with
        | none => rw [hn] at hs; exact .drop hs (ih xs (by simpa using hb))
        | some n =>
          rw [hn] at hs
          obtain ⟨h0, hle, hq⟩ := hs
          have hr := ih ((x :: xs).drop n) (by simp only [List.length_drop]; omega)
          have := Utf8Kept.keep hq hr
          rwa [List.take_append_drop] at this
  exact h _ b le_rfl

/-- INTERP meets R126 to R133. -/
theorem interp_spec (tag : Byte) (val : List Byte) : Interprets tag val (interp tag val) := by
  unfold interp
  split
  · subst tag; exact .raw val
  split
  · subst tag
    by_cases h : val = [1]
    · subst h; exact .boolTrue
    · have : (val == [1]) = false := by simpa using h
      simp only [interpBool, this]; exact .boolFalse h
  split
  · subst tag
    unfold interpInt32
    split
    · unfold be32s; rw [be32u_toNat]; exact .int32 rfl
    · rename_i h
      refine .int32Width fun hl => ?_
      match val, hl with
      | [a, b, c, d], _ => exact h a b c d rfl
  split
  · subst tag; exact .string (utf8Filter_spec val)
  split
  · subst tag
    unfold interpEnum8
    split
    · exact .enum8 _
    · rename_i h
      refine .enum8Width fun hl => ?_
      match val, hl with
      | [a], _ => exact h a rfl
  split
  · subst tag
    unfold interpBitmap32
    split
    · exact .bitmap32 (be32u_toNat _ _ _ _)
    · rename_i h
      refine .bitmap32Width fun hl => ?_
      match val, hl with
      | [a, b, c, d], _ => exact h a b c d rfl
  · refine .unknown val ?_
    bv_omega

/-! The marker search. -/

theorem mdNext_none {st : MdState} {x : Byte} : mdNext st x = none ↔ st = .got55 ∧ x = 0xAA := by
  by_cases h1 : x = 0x55 <;> by_cases h2 : x = 0xAA <;> cases st <;>
    simp_all [mdNext, marker0, marker1]

theorem mdNext_some {st st' : MdState} {x : Byte} (h : mdNext st x = some st') :
    st' = .got55 ↔ x = 0x55 := by
  by_cases h1 : x = 0x55 <;> by_cases h2 : x = 0xAA <;> cases st <;> cases st' <;>
    simp_all [mdNext, marker0, marker1]

/-- The scan from index `n` on, when MD is right about the byte before and no marker begins before it. -/
theorem scanLoop_spec (b : List Byte) : ∀ (xs : List Byte) (n : Nat) (st : MdState) (s : State),
    b.drop n = xs → s.md = some st → (st = .got55 ↔ 0 < n ∧ b[n - 1]? = some 0x55) →
    (∀ j, j + 1 < n → ¬ MarkerAt b j) →
    ∃ r md, scanLoop xs n s = .ok (r, s.withMd md) ∧
      match r with
      | some i => FirstMarker b i
      | none => NoMarker b := by
  intro xs
  induction xs with
  | nil =>
    intro n st s hd hs _ hno
    refine ⟨none, s.md, rfl, fun i hm => ?_⟩
    have hl : b.length ≤ n := List.drop_eq_nil_iff.1 hd
    have h1 : i + 1 < b.length := by
      by_contra hc
      have := hm.2
      rw [List.getElem?_eq_none (by omega)] at this
      simp at this
    exact hno i (by omega) hm
  | cons x xs ih =>
    intro n st s hd hs hst hno
    have hx : b[n]? = some x := by
      have := congrArg (fun l => l[0]?) hd
      simpa using this
    have hd' : b.drop (n + 1) = xs := by
      have := congrArg List.tail hd
      simpa using this
    have hlast : ∀ {j}, j + 1 = n → (MarkerAt b j ↔ b[n - 1]? = some 0x55 ∧ x = 0xAA) := by
      intro j hj
      subst hj
      simp [MarkerAt, hx]
    have hno' : ¬ (st = .got55 ∧ x = 0xAA) → ∀ j, j + 1 < n + 1 → ¬ MarkerAt b j := by
      intro hn j hj hm
      rcases Nat.lt_or_ge (j + 1) n with h | h
      · exact hno j h hm
      · have hj' : j + 1 = n := by omega
        have := (hlast hj').1 hm
        exact hn ⟨hst.2 ⟨by omega, this.1⟩, this.2⟩
    simp only [scanLoop, hs, readReg_some, ok_bind]
    cases hmd : mdNext st x with
    | none =>
      have hg := mdNext_none.1 hmd
      obtain ⟨hg1, hg2⟩ := hg
      obtain ⟨hn0, h55⟩ := hst.1 hg1
      refine ⟨some (n - 1), s.md, rfl, ?_, fun j hj => hno j (by omega)⟩
      rw [hlast (by omega)]
      exact ⟨h55, hg2⟩
    | some st' =>
      have hst' := mdNext_some hmd
      have hnot : ¬ (st = .got55 ∧ x = 0xAA) := by
        rw [← mdNext_none, hmd]; simp
      obtain ⟨r, md, h1, h2⟩ := ih (n + 1) st' (s.withMd (some st')) hd' rfl
        (by rw [hst']; simp [hx]) (hno' hnot)
      exact ⟨r, md, h1, h2⟩

/-- One search: the first marker or NONE, and MD is given up again. -/
theorem search_spec (b : List Byte) (s : State) :
    ∃ r, search b s = .ok (r, s.withMd none) ∧
      match r with
      | some i => FirstMarker b i
      | none => NoMarker b := by
  obtain ⟨r, md, h1, h2⟩ := scanLoop_spec b b 0 .idle (s.withMd (some .idle)) rfl rfl (by simp) (by simp)
  exact ⟨r, by simp only [search, h1, ok_bind]; rfl, h2⟩

theorem firstMarker_unique {b : List Byte} {i j : Nat} (hi : FirstMarker b i) (hj : FirstMarker b j) :
    i = j := by
  rcases Nat.lt_trichotomy i j with h | h | h
  · exact absurd hi.1 (hj.2 i h)
  · exact h
  · exact absurd hj.1 (hi.2 j h)

theorem search_first {b : List Byte} {i : Nat} (h : FirstMarker b i) (s : State) :
    search b s = .ok (some i, s.withMd none) := by
  obtain ⟨r, h1, h2⟩ := search_spec b s
  cases r with
  | none => exact absurd h.1 (h2 i)
  | some j => rw [h1, firstMarker_unique h2 h]

theorem search_noMarker {b : List Byte} (h : NoMarker b) (s : State) :
    search b s = .ok (none, s.withMd none) := by
  obtain ⟨r, h1, h2⟩ := search_spec b s
  cases r with
  | none => exact h1
  | some j => exact absurd h2.1 (h j)

/-! The Data-Unit Decoder. -/

theorem drop_eq_cons {b : List Byte} {n : Nat} {x : Byte} {xs : List Byte} (h : b.drop n = x :: xs) :
    b[n]? = some x ∧ b.drop (n + 1) = xs := by
  constructor
  · have := congrArg (fun l => l[0]?) h
    simpa using this
  · have := congrArg List.tail h
    simpa using this

theorem readHeader_eq {p rest : List Byte} {c : Nat} {id tag hi lo : Byte} {s : State}
    (hc : s.du.cur = some c) (hd : p.drop c = id :: tag :: hi :: lo :: rest) :
    readHeader p s = .ok (s.withDu { s.du with
      id := some id, tag := some tag, vlen := some (be16 hi lo), cur := some (c + 4) }) := by
  obtain ⟨h0, hd⟩ := drop_eq_cons hd
  obtain ⟨h1, hd⟩ := drop_eq_cons hd
  obtain ⟨h2, hd⟩ := drop_eq_cons hd
  obtain ⟨h3, hd⟩ := drop_eq_cons hd
  simp [readHeader, hc, byteAt_eq h0, byteAt_eq h1, byteAt_eq h2, byteAt_eq h3, duHdrLen]

/-- The loop from CUR on appends to OUT the records of the rest of the payload. -/
theorem unitLoop_spec (p : List Byte) : ∀ (k c : Nat) (out : List UnitResult) (s : State),
    p.length ≤ c + k → c ≤ p.length → s.du.cur = some c → s.du.out = some out →
    ∃ us du, unitLoop k p s = .ok (s.withDu du) ∧ du.out = some (out ++ us) ∧
      Records (p.drop c) us := by
  intro k
  induction k with
  | zero =>
    intro c out s hk hc hcur hout
    have : p.drop c = [] := List.drop_eq_nil_iff.2 (by omega)
    exact ⟨[], s.du, rfl, by simp [hout], by rw [this]; exact .done⟩
  | succ k ih =>
    intro c out s hk hc hcur hout
    simp only [unitLoop, hcur, readReg_some, ok_bind]
    by_cases hmore : c < p.length
    · simp only [moreToParse, hmore, decide_true, if_true]
      match hd : p.drop c with
      | [] => simp [List.drop_eq_nil_iff] at hd; omega
      | [x] | [x, y] | [x, y, z] =>
        have hl := congrArg List.length hd
        simp only [List.length_drop, List.length_cons, List.length_nil] at hl
        have ht : headerTruncated p c = true := (headerTruncated_iff p c).2 (by omega)
        have hs : slice p c p.length = .ok (p.drop c) := by
          rw [slice_eq hc le_rfl, List.take_of_length_le (by simp)]
        simp only [ht, if_true, hs, ok_bind, appendOut, hout, readReg_some]
        refine ⟨_, _, rfl, rfl, ?_⟩
        rw [hd]
        exact .headerCut (by simp) (by simp)
      | id :: tag :: hi :: lo :: rest =>
        have hl := congrArg List.length hd
        simp only [List.length_drop, List.length_cons] at hl
        have ht : headerTruncated p c = false := by
          rw [Bool.eq_false_iff, Ne, headerTruncated_iff]; omega
        have hd4 : p.drop (c + 4) = rest := by
          have := congrArg (List.drop 4) hd
          simpa using this
        simp only [ht, Bool.false_eq_true, if_false, readHeader_eq hcur hd, ok_bind,
          State.withDu_du, readReg_some]
        by_cases hv : rest.length < (be16 hi lo).toNat
        · have hvt : valueTruncated p (c + 4) (be16 hi lo) = true := by
            simp only [valueTruncated, decide_eq_true_eq]; omega
          have hs : slice p (c + 4 - duHdrLen) p.length = .ok (p.drop c) := by
            rw [slice_eq (by simp [duHdrLen, hc]) le_rfl, List.take_of_length_le (by simp)]
            rfl
          simp only [hvt, if_true, hs, ok_bind, appendOut, State.withDu_du, hout, readReg_some]
          refine ⟨_, _, rfl, rfl, ?_⟩
          rw [be16_toNat] at hv
          rw [hd]
          exact .valueCut hv
        · have hvt : valueTruncated p (c + 4) (be16 hi lo) = false := by
            simp only [valueTruncated, decide_eq_false_iff_not]; omega
          have hs : slice p (c + 4) (c + 4 + (be16 hi lo).toNat)
              = .ok (rest.take (be16 hi lo).toNat) := by
            rw [slice_eq (by omega) (by omega), hd4]
            congr 2; omega
          simp only [hvt, Bool.false_eq_true, if_false, takeValue, State.withDu_du, readReg_some, ok_bind, hs,
            interpret, appendUnit, appendOut, hout]
          obtain ⟨us, du, h1, h2, h3⟩ := ih (c + 4 + (be16 hi lo).toNat)
            (out ++ [.unit ⟨id, tag, be16 hi lo, interp tag (rest.take (be16 hi lo).toNat),
              rest.take (be16 hi lo).toNat⟩])
            (s.withDu ⟨some (c + 4 + (be16 hi lo).toNat), some id, some tag, some (be16 hi lo),
              some (rest.take (be16 hi lo).toNat),
              some (out ++ [.unit ⟨id, tag, be16 hi lo, interp tag (rest.take (be16 hi lo).toNat),
                rest.take (be16 hi lo).toNat⟩])⟩)
            (by omega) (by omega) rfl rfl
          refine ⟨_, du, h1, by rw [h2, List.append_assoc], ?_⟩
          have hdr : p.drop (c + 4 + (be16 hi lo).toNat) = rest.drop (be16 hi lo).toNat := by
            rw [← hd4, List.drop_drop]
          rw [hdr] at h3
          have hu := Records.unit (id := id) (be16_toNat hi lo)
            (show (rest.take (be16 hi lo).toNat).length = _ by simp; omega)
            (interp_spec tag (rest.take (be16 hi lo).toNat)) h3
          rwa [List.take_append_drop] at hu
    · have : p.drop c = [] := List.drop_eq_nil_iff.2 (by omega)
      simp only [moreToParse, hmore, decide_false, Bool.false_eq_true, if_false]
      exact ⟨[], s.du, rfl, by simp [hout], by rw [this]; exact .done⟩

/-- DU.PARSE answers the records of its payload and gives up its working registers. -/
theorem parseUnits_spec (p : List Byte) (s : State) :
    ∃ us, parseUnits p s = .ok (us, s.withDu {}) ∧ Records p us := by
  obtain ⟨us, du, h1, h2, h3⟩ := unitLoop_spec p p.length 0 [] (openUnits s) (by omega) (by omega) rfl rfl
  refine ⟨us, ?_, h3⟩
  simp only [parseUnits, h1, ok_bind, closeUnits, State.withDu_du, h2, readReg_some]
  rfl

/-- A lone data unit answers the one DataUnit of its header, value and reading. -/
theorem loneUnit_eq (id tag : Byte) (vlen : Half) (val : List Byte) (value : Value) (s : State) :
    loneUnit id tag vlen val value s = .ok ([.unit ⟨id, tag, vlen, value, val⟩], s.withDu {}) := rfl

theorem runUnit_eq (id tag : Byte) (vlen : Half) (val : List Byte) (value : Value) (s : State) :
    runUnit id tag vlen val value s
      = .next (s.release.withRet (.units [.unit ⟨id, tag, vlen, value, val⟩])) := rfl

/-! The Packet Decoder. -/

/-- `decode_packet` answers the one result of its frame and gives up its working registers. -/
theorem decodePacket_spec (f : List Byte) (s : State) :
    ∃ r du, decodePacket f s = .ok (r, (s.withPd {}).withDu du) ∧ FrameResult s.cfg f r := by
  by_cases h7 : f.length < 7
  · refine ⟨_, s.du, ?_, .tooShort h7⟩
    have : frameTooShort f = true := (frameTooShort_iff f).2 h7
    simp only [decodePacket, packetSteps, this, if_true, ok_bind]
    rfl
  · have ht : frameTooShort f = false := by rwa [Bool.eq_false_iff, Ne, frameTooShort_iff]
    match f, h7 with
    | m0 :: m1 :: ver :: hi :: lo :: len :: rest, h7 =>
      simp only [List.length_cons] at h7
      have hll := len.isLt
      have htot : (BitVec.ofNat 9 (hdrLen + len.toNat + 1)).toNat = 7 + len.toNat := by
        simp only [hdrLen, BitVec.toNat_ofNat]; omega
      by_cases hb : rest.length < len.toNat + 1
      · refine ⟨_, s.du, ?_, .lengthMismatch (by omega) hb⟩
        have : belowTotal (m0 :: m1 :: ver :: hi :: lo :: len :: rest)
            (BitVec.ofNat 9 (hdrLen + len.toNat + 1)) = true := by
          simp only [belowTotal, htot, List.length_cons, decide_eq_true_eq]; omega
        simp only [decodePacket, packetSteps, ht, Bool.false_eq_true, if_false, parseHeader, byteAt, ok_bind,
          computeTotal, State.withPd_pd, readReg_some, List.getElem?_cons_succ, List.getElem?_cons_zero, this,
          if_true]
        rfl
      · have hbt : belowTotal (m0 :: m1 :: ver :: hi :: lo :: len :: rest)
            (BitVec.ofNat 9 (hdrLen + len.toNat + 1)) = false := by
          simp only [belowTotal, htot, List.length_cons, decide_eq_false_iff_not]; omega
        obtain ⟨pay, rx, tail, hrest, hpl⟩ : ∃ pay rx tail, rest = pay ++ rx :: tail ∧
            pay.length = len.toNat := by
          refine ⟨rest.take len.toNat, rest[len.toNat]'(by omega), rest.drop (len.toNat + 1), ?_, ?_⟩
          · rw [List.getElem_cons_drop, List.take_append_drop]
          · simp; omega
        subst hrest
        have hrx : (m0 :: m1 :: ver :: hi :: lo :: len :: (pay ++ rx :: tail))[hdrLen + len.toNat]?
            = some rx := by
          have : hdrLen + len.toNat = pay.length + 6 := by simp only [hdrLen]; omega
          simp [this]
        have hpay : slice (m0 :: m1 :: ver :: hi :: lo :: len :: (pay ++ rx :: tail)) hdrLen
            (hdrLen + len.toNat) = .ok pay := by
          rw [slice_eq (by omega) (by simp [hdrLen]; omega)]
          simp [hdrLen, ← hpl]
        have hcov : slice (m0 :: m1 :: ver :: hi :: lo :: len :: (pay ++ rx :: tail))
            (cksumOffset s.cfg.cksumStart) (hdrLen + len.toNat)
            = .ok (covered s.cfg m0 m1 (ver :: hi :: lo :: len :: pay)) := by
          have h6 : hdrLen + len.toNat = pay.length + 6 := by simp only [hdrLen]; omega
          cases hcs : s.cfg.cksumStart <;>
            rw [slice_eq (by simp [cksumOffset, hdrLen]; try omega) (by simp [hdrLen]; omega), h6] <;>
            simp [cksumOffset, covered, hcs]
        simp only [decodePacket, packetSteps, ht, Bool.false_eq_true, if_false, parseHeader, byteAt, ok_bind,
          computeTotal, State.withPd_pd, State.withPd_cfg, readReg_some, List.getElem?_cons_succ,
          List.getElem?_cons_zero, hbt, checkAndBuild, slicePayload, calcChecksum, hpay, hrx, hcov]
        by_cases hs : sumMod256 (covered s.cfg m0 m1 (ver :: hi :: lo :: len :: pay)) = rx
        · have hcd : checksumDiffers (checksumOf (covered s.cfg m0 m1 (ver :: hi :: lo :: len :: pay))) rx
              = false := by simp [checksumDiffers, checksumOf_eq, hs]
          simp only [hcd, Bool.false_eq_true, if_false, buildPacket, State.withPd_pd, readReg_some, ok_bind]
          obtain ⟨us, hu1, hu2⟩ := parseUnits_spec pay
            (((((s.withPd {}).withPd ⟨some ver, some (be16 hi lo), some len, none, none, none, none⟩).withPd
              ⟨some ver, some (be16 hi lo), some len, some (BitVec.ofNat 9 (hdrLen + len.toNat + 1)), none,
                none, none⟩).withPd
              ⟨some ver, some (be16 hi lo), some len, some (BitVec.ofNat 9 (hdrLen + len.toNat + 1)), some pay,
                some rx, none⟩).withPd
              ⟨some ver, some (be16 hi lo), some len, some (BitVec.ofNat 9 (hdrLen + len.toNat + 1)), some pay,
                some rx, some (checksumOf (covered s.cfg m0 m1 (ver :: hi :: lo :: len :: pay)))⟩)
          simp only [hu1, ok_bind, State.withDu_pd, State.withPd_pd, readReg_some]
          exact ⟨_, {}, rfl, .accepted (be16_toNat hi lo) hpl hs hu2⟩
        · have hcd : checksumDiffers (checksumOf (covered s.cfg m0 m1 (ver :: hi :: lo :: len :: pay))) rx
              = true := by simp [checksumDiffers, checksumOf_eq, hs]
          simp only [hcd, if_true, ok_bind]
          refine ⟨_, s.du, rfl, ?_⟩
          rw [checksumOf_eq]
          exact .sumMismatch hpl hs

/-! The Frame Extractor. -/

theorem firstMarker_lt {b : List Byte} {m : Nat} (h : FirstMarker b m) : m + 2 ≤ b.length := by
  by_contra hc
  have := h.1.2
  rw [List.getElem?_eq_none (by omega)] at this
  simp at this

/-- A buffer with a marker at `m` is the bytes before it, the marker, and the bytes after it. -/
theorem split_at_marker {b : List Byte} {m : Nat} (h : FirstMarker b m) :
    b = b.take m ++ mark ++ b.drop (m + 2) := by
  obtain ⟨h0, h1⟩ := h.1
  have e0 : b.drop m = 0x55 :: b.drop (m + 1) := by
    have hl : m < b.length := by have := firstMarker_lt h; omega
    rw [List.drop_eq_getElem_cons hl]
    congr 1
    simpa [List.getElem?_eq_getElem hl] using h0
  have e1 : b.drop (m + 1) = 0xAA :: b.drop (m + 2) := by
    have hl : m + 1 < b.length := by have := firstMarker_lt h; omega
    rw [List.drop_eq_getElem_cons hl]
    congr 1
    simpa [List.getElem?_eq_getElem hl] using h1
  conv_lhs => rw [← List.take_append_drop m b, e0, e1]
  simp [mark]

theorem eventOf_eq (r : PacketResult) : eventOf r = resultEvent r := by
  cases r <;> rfl

theorem marker_eq : marker = mark := rfl

/-- DRAIN_STEP up to the search for the next marker: the orphan event, and BUF past the marker. -/
theorem locateFirst_eq {s : State} {m : Nat} (h : FirstMarker s.buf m) :
    (do
      let s ← locate (s.withFe {})
      let s ← emitOrphan s
      consumeMarker s)
      = .ok { s with buf := s.buf.drop (m + 2), evq := s.evq ++ orphanEvents (s.buf.take m),
                     fe := ⟨some (some m), none, none⟩, md := none } := by
  have hl := firstMarker_lt h
  have hs : search s.buf (s.withFe {}) = .ok (some m, (s.withFe {}).withMd none) := search_first h _
  have hr : slice s.buf (m + 2) s.buf.length = .ok (s.buf.drop (m + 2)) := by
    rw [slice_eq (by omega) le_rfl, List.take_of_length_le (by simp)]
  by_cases hm : m = 0
  · subst hm
    simp only [locate, hs, ok_bind, emitOrphan, State.withFe_fe, readReg_some, markerIndex_some, if_true,
      consumeMarker, markerLen, State.withFe_buf, State.withMd_buf, hr]
    simp [State.withBuf, State.withFe, State.withMd, orphanEvents]
  · have ho : slice s.buf 0 m = .ok (s.buf.take m) := by
      rw [slice_eq (by omega) (by omega)]; simp
    have hne : s.buf.take m ≠ [] := by
      intro hc
      have := congrArg List.length hc
      rw [List.length_take, List.length_nil] at this; omega
    simp only [locate, hs, ok_bind, emitOrphan, State.withFe_fe, readReg_some, markerIndex_some, hm, if_false,
      consumeMarker, markerLen, State.withFe_buf, State.withMd_buf, ho, State.emit_fe, State.emit_buf, hr]
    simp [State.withBuf, State.withFe, State.withMd, State.emit, orphanEvents, hne]

theorem drainStep_bind (s : State) :
    drainStep s = (do
      let s ← (do
        let s ← locate (s.withFe {})
        let s ← emitOrphan s
        consumeMarker s)
      let s ← locateNext s
      let s ← cutFrame s
      decodeFrame s) := by
  unfold drainStep
  cases locate (s.withFe {}) with
  | error e => rfl
  | ok s1 =>
    simp only [ok_bind]
    cases emitOrphan s1 <;> rfl

/-- The end of DRAIN_STEP: the candidate in FRAME is decoded once and its result emitted. -/
theorem decodeFrame_spec (s : State) (f : List Byte) (h : s.fe.frame = some f) :
    ∃ r du, decodeFrame s = .ok { s with evq := s.evq ++ [resultEvent r], fe := {}, pd := {}, du := du } ∧
      FrameResult s.cfg f r := by
  obtain ⟨r, du, h1, h2⟩ := decodePacket_spec f s
  refine ⟨r, du, ?_, h2⟩
  simp [decodeFrame, h, h1, emitResult, eventOf_eq, State.emit, State.withFe, State.withPd, State.withDu]

/-- DRAIN_STEP on the last marker of BUF: the whole remainder is the body (R179). -/
theorem drainStep_eager {s : State} {m : Nat} (h : FirstMarker s.buf m)
    (hn : NoMarker (s.buf.drop (m + 2))) :
    ∃ r du, drainStep s = .ok { s with
        buf := [], evq := s.evq ++ (orphanEvents (s.buf.take m) ++ [resultEvent r]), fe := {}, pd := {},
        du := du, md := none } ∧
      FrameResult s.cfg (mark ++ s.buf.drop (m + 2)) r := by
  rw [drainStep_bind, locateFirst_eq h]
  simp only [ok_bind, locateNext, search_noMarker hn, cutFrame, State.withFe_fe, readReg_some, marker_eq,
    State.withFe_buf, State.withMd_buf]
  obtain ⟨r, du, h1, h2⟩ := decodeFrame_spec
    { s with buf := [], evq := s.evq ++ orphanEvents (s.buf.take m),
             fe := ⟨some (some m), some none, some (mark ++ s.buf.drop (m + 2))⟩, md := none }
    (mark ++ s.buf.drop (m + 2)) rfl
  refine ⟨r, du, ?_, h2⟩
  rw [← List.append_assoc]
  exact h1

/-- DRAIN_STEP on a marker with another after it: the body ends there and the rest stays in BUF (R180). -/
theorem drainStep_bounded {s : State} {m n : Nat} (h : FirstMarker s.buf m)
    (hn : FirstMarker (s.buf.drop (m + 2)) n) :
    ∃ r du, drainStep s = .ok { s with
        buf := (s.buf.drop (m + 2)).drop n,
        evq := s.evq ++ (orphanEvents (s.buf.take m) ++ [resultEvent r]), fe := {}, pd := {},
        du := du, md := none } ∧
      FrameResult s.cfg (mark ++ (s.buf.drop (m + 2)).take n) r := by
  have hl := firstMarker_lt hn
  have ho : slice (s.buf.drop (m + 2)) 0 n = .ok ((s.buf.drop (m + 2)).take n) := by
    rw [slice_eq (by omega) (by omega)]; simp
  have hr : slice (s.buf.drop (m + 2)) n (s.buf.drop (m + 2)).length
      = .ok ((s.buf.drop (m + 2)).drop n) := by
    rw [slice_eq (by omega) le_rfl, List.take_of_length_le (by simp only [List.length_drop]; omega)]
  rw [drainStep_bind, locateFirst_eq h]
  simp only [ok_bind, locateNext, search_first hn, cutFrame, State.withFe_fe, readReg_some, marker_eq,
    State.withFe_buf, State.withMd_buf, ho, hr]
  obtain ⟨r, du, h1, h2⟩ := decodeFrame_spec
    { s with buf := (s.buf.drop (m + 2)).drop n, evq := s.evq ++ orphanEvents (s.buf.take m),
             fe := ⟨some (some m), some (some n), some (mark ++ (s.buf.drop (m + 2)).take n)⟩, md := none }
    (mark ++ (s.buf.drop (m + 2)).take n) rfl
  refine ⟨r, du, ?_, h2⟩
  rw [← List.append_assoc]
  exact h1

theorem noMarker_short {b : List Byte} (h : b.length ≤ 1) : NoMarker b := by
  intro i hm
  have := hm.2
  rw [List.getElem?_eq_none (by omega)] at this
  simp at this

/-- The drain loop appends the events of its buffer and leaves what remains of it. -/
theorem drainLoop_spec : ∀ (k : Nat) (s : State), s.buf.length ≤ 2 * k + 1 →
    ∃ evs b' s', drainLoop k s = .ok s' ∧ Drained s.cfg s.buf evs b' ∧
      s'.release = { s.release with buf := b', evq := s.evq ++ evs } := by
  intro k
  induction k with
  | zero =>
    intro s hk
    exact ⟨[], s.buf, s, rfl, .idle (noMarker_short (by omega)), by simp [State.release]⟩
  | succ k ih =>
    intro s hk
    obtain ⟨r, h1, h2⟩ := search_spec s.buf s
    cases r with
    | none =>
      refine ⟨[], s.buf, s.withMd none, ?_, .idle h2, by simp [State.release, State.withMd]⟩
      simp [drainLoop, h1]
    | some m =>
      have hm : FirstMarker (s.withMd none).buf m := h2
      have hsplit := split_at_marker h2
      have hm2 := firstMarker_lt h2
      obtain ⟨r', h1', h2'⟩ := search_spec (s.buf.drop (m + 2)) s
      cases r' with
      | none =>
        obtain ⟨r, du, e1, e2⟩ := drainStep_eager hm h2'
        obtain ⟨evs, b', s', f1, f2, f3⟩ := ih _ (show (State.buf { s.withMd none with
            buf := [], evq := s.evq ++ (orphanEvents (s.buf.take m) ++ [resultEvent r]), fe := {},
            pd := {}, du := du, md := none }).length ≤ 2 * k + 1 by simp)
        have hb : b' = [] ∧ evs = [] := by
          have : ∀ cfg b evs b', Drained cfg b evs b' → b = [] → b' = [] ∧ evs = [] := by
            intro cfg b evs b' hd hb
            cases hd with
            | idle h => exact ⟨hb, rfl⟩
            | eager hm hn hr => simp [mark] at hb
            | bounded hm hn hr hd => simp [mark] at hb
          exact this _ _ _ _ f2 rfl
        obtain ⟨rfl, rfl⟩ := hb
        refine ⟨orphanEvents (s.buf.take m) ++ [resultEvent r], [], s', ?_, ?_, ?_⟩
        · simp only [drainLoop, h1, ok_bind, e1]
          exact f1
        · have hml : (s.buf.take m).length = m := by simp; omega
          have hd := Drained.eager (cfg := s.cfg) (orphan := s.buf.take m) (body := s.buf.drop (m + 2)) (r := r)
            (by rw [← hsplit, hml]; exact h2) h2' e2
          rwa [← hsplit] at hd
        · rw [f3]; simp [State.release, State.withMd]
      | some n =>
        obtain ⟨r, du, e1, e2⟩ := drainStep_bounded hm h2'
        have hn2 := firstMarker_lt h2'
        simp only [List.length_drop] at hn2
        obtain ⟨evs, b', s', f1, f2, f3⟩ := ih _ (show (State.buf { s.withMd none with
            buf := (s.buf.drop (m + 2)).drop n,
            evq := s.evq ++ (orphanEvents (s.buf.take m) ++ [resultEvent r]), fe := {}, pd := {}, du := du,
            md := none }).length ≤ 2 * k + 1 by simp only [List.length_drop]; omega)
        refine ⟨orphanEvents (s.buf.take m) ++ [resultEvent r] ++ evs, b', s', ?_, ?_, ?_⟩
        · simp only [drainLoop, h1, ok_bind, e1]
          exact f1
        · have hml : (s.buf.take m).length = m := by simp; omega
          have hnl : ((s.buf.drop (m + 2)).take n).length = n := by simp; omega
          have hall : s.buf.take m ++ mark ++ (s.buf.drop (m + 2)).take n ++ (s.buf.drop (m + 2)).drop n
              = s.buf := by
            rw [List.append_assoc _ (List.take n _), List.take_append_drop]; exact hsplit.symm
          have hd := Drained.bounded (cfg := s.cfg) (orphan := s.buf.take m)
            (body := (s.buf.drop (m + 2)).take n) (rest := (s.buf.drop (m + 2)).drop n) (r := r)
            (by rw [hall, hml]; exact h2) (by rw [List.take_append_drop, hnl]; exact h2') e2 f2
          rwa [hall] at hd
        · rw [f3]; simp [State.release, State.withMd]

end Sys2Proof.Machine
end

