-- ==== Sys2Proof/Tests/Slice0.lean ====
section
/-! SUPPORT. Tests. Words and byte strings are written out from the encoding tables of 30_encoding.md and from the
rows of 95_test_vectors.md, which also give the expected results; then, for every statement with hypotheses, a
named state and operands that meet them. -/

namespace Sys2Proof.Tests

open Sys2Proof.Machine Sys2Proof.Contract

/-- The reset state with the given BUF. -/
def holding (b : List Byte) : State := { State.reset with buf := b }

/-- A small block: BUF_CAP 4, CHUNK_MAX 3, the given BUF. -/
def capped (b : List Byte) : State :=
  { State.reset with cfg := { defaultConfig with bufCap := some 4, chunkMax := some 3 }, buf := b }

/-- The next state, if there is one. -/
def after (o : Host.Outcome State Fault Refusal) : Option State :=
  match o with
  | .next s => some s
  | .fault _ => none
  | .refused _ => none

/-- What a stand-alone instruction returns from the reset state. -/
def returned (i : Instr) : Option Ret := (after (exec i State.reset)).map (·.ret)

/-- The events and BUF after FEED of a chunk to a block (43_frame_extractor.md R185). -/
def fed (s : State) (chunk : List Byte) : Option (List Event × List Byte) :=
  (after (performs [.opPush chunk, .opDrain] s)).map (fun t => (t.evq, t.buf))

/-- A search for a marker over all indices is decided by the indices in range. -/
theorem noMarker_of_range {b : List Byte} (h : ∀ i < b.length, ¬ MarkerAt b i) : NoMarker b := by
  intro i hi
  by_cases hl : i < b.length
  · exact h i hl hi
  · simp [MarkerAt, List.getElem?_eq_none (Nat.le_of_not_lt hl)] at hi

/-! Ill-formed terms are refused by WellFormed, one for each check. -/

theorem test_wf_frame_without_marker : wellFormed (.frame [0xAA, 0x55, 0, 0, 0, 0, 0]) = false := by decide
theorem test_wf_frame_cut_marker : wellFormed (.frame [0x55]) = false := by decide
theorem test_wf_raw_short : wellFormed (.duRaw 1 2 [0]) = false := by decide
theorem test_wf_bool_long : wellFormed (.duBool 1 0 [1]) = false := by decide
theorem test_wf_int32_short : wellFormed (.duInt32 1 4 [0, 0, 0]) = false := by decide
theorem test_wf_string_empty : wellFormed (.duString 1 1 []) = false := by decide
theorem test_wf_enum8_long : wellFormed (.duEnum8 1 1 [0, 0]) = false := by decide
theorem test_wf_bitmap32_short : wellFormed (.duBitmap32 1 256 [0]) = false := by decide
theorem test_wf_unknown_tag : wellFormed (.duUnknown 1 5 0 []) = false := by decide
theorem test_wf_unknown_length : wellFormed (.duUnknown 1 6 1 []) = false := by decide

/-! Decoding, every constructor: bytes laid out from R80, R88, R90 and R97. -/

theorem test_decode_frame : decode (.frame [0x55, 0xAA, 3, 0, 7, 1, 0xFE, 9])
    = .ok (.frame [0x55, 0xAA, 3, 0, 7, 1, 0xFE, 9]) := rfl
theorem test_decode_raw : decode (.unit [0x09, 0x00, 0x00, 0x03, 0xA1, 0xB2, 0xC3])
    = .ok (.duRaw 9 3 [0xA1, 0xB2, 0xC3]) := rfl
theorem test_decode_bool : decode (.unit [0x01, 0x01, 0x00, 0x01, 0x01]) = .ok (.duBool 1 1 [1]) := rfl
theorem test_decode_int32 : decode (.unit [0x01, 0x02, 0x00, 0x04, 0, 0, 0, 0x7B])
    = .ok (.duInt32 1 4 [0, 0, 0, 0x7B]) := rfl
theorem test_decode_string : decode (.unit [0x06, 0x03, 0x00, 0x02, 0x68, 0x69])
    = .ok (.duString 6 2 [0x68, 0x69]) := rfl
theorem test_decode_enum8 : decode (.unit [0x04, 0x04, 0x00, 0x01, 0x02]) = .ok (.duEnum8 4 1 [2]) := rfl
theorem test_decode_bitmap32 : decode (.unit [0x05, 0x05, 0x00, 0x04, 0x80, 0, 0, 1])
    = .ok (.duBitmap32 5 4 [0x80, 0, 0, 1]) := rfl
theorem test_decode_unknown_6 : decode (.unit [0x07, 0x06, 0x00, 0x01, 0x01]) = .ok (.duUnknown 7 6 1 [1]) := rfl
theorem test_decode_unknown_255 : decode (.unit [0x07, 0xFF, 0x00, 0x00]) = .ok (.duUnknown 7 255 0 []) := rfl
theorem test_decode_vlen_big_endian : decodeUnit (0x09 :: 0x00 :: 0x01 :: 0x02 :: List.replicate 259 0xEE)
    = .ok (.duRaw 9 258 (List.replicate 258 0xEE), [0xEE]) := by decide +kernel
theorem test_decode_payload : decode (.payload [0x01, 0x02]) = .ok (.duParse [1, 2]) := rfl
theorem test_decode_cut_unit : decode (.unit [0x01, 0x02, 0x00]) = .ok (.duParse [1, 2, 0]) := rfl
theorem test_decode_checksum : decode (.checksum [0xFF, 0x01]) = .ok (.checksum [0xFF, 1]) := rfl
theorem test_decode_search : decode (.search [0x55, 0xAA]) = .ok (.findMarker [0x55, 0xAA]) := rfl
theorem test_decode_reset : decode (.hostOp 0b00#2 []) = .ok .opReset := rfl
theorem test_decode_push : decode (.hostOp 0b01#2 [0xAA, 3]) = .ok (.opPush [0xAA, 3]) := rfl
theorem test_decode_drain : decode (.hostOp 0b10#2 []) = .ok .opDrain := rfl
theorem test_decode_reserved : decode (.hostOp 0b11#2 [0xAA]) = .error .reservedOpCode := rfl
theorem test_table_word_frame : decodeTableWord 16 0x55AA = some (.frame [0x55, 0xAA, 0, 0, 0, 0, 0]) := by
  decide
theorem test_table_word_string : decodeTableWord 32 0x06030002 = some (.duString 6 2 [0, 0]) := by decide
theorem test_fetch_word_runs : step (State.reset.withFetchWord 32 0x06030002)
    = exec (.duString 6 2 [0, 0]) State.reset := rfl

/-! One step of each instruction (95_test_vectors.md, tables V-C, V-M, V-D, V-P, V-F). -/

theorem test_frame_e2 : returned (.frame [0x55, 0xAA, 3, 0, 7, 8, 1, 2, 0, 4, 0, 0, 0, 0x7B, 0x94])
    = some (.result (.packet ⟨3, 7, 8, [1, 2, 0, 4, 0, 0, 0, 0x7B], 0x94,
        [.unit ⟨1, 2, 4, .int32V 123, [0, 0, 0, 0x7B]⟩]⟩)) := by decide
theorem test_frame_len_mutated : returned (.frame [0x55, 0xAA, 3, 0, 7, 4, 1, 1, 0, 1, 1, 0x13])
    = some (.result (.err (.checksumMismatch 0x11 0x01 [0x55, 0xAA, 3, 0, 7, 4, 1, 1, 0, 1, 1, 0x13]))) := by
  decide
theorem test_raw_empty : returned (.duRaw 9 0 []) = some (.units [.unit ⟨9, 0, 0, .rawV [], []⟩]) := by decide
theorem test_bool_two : returned (.duBool 1 1 [2])
    = some (.units [.unit ⟨1, 1, 1, .boolV false, [2]⟩]) := by decide
theorem test_bool_one : returned (.duBool 1 1 [1])
    = some (.units [.unit ⟨1, 1, 1, .boolV true, [1]⟩]) := by decide
theorem test_int32_minimum : returned (.duInt32 1 4 [0x80, 0, 0, 0])
    = some (.units [.unit ⟨1, 2, 4, .int32V (-2147483648), [0x80, 0, 0, 0]⟩]) := by decide
theorem test_int32_width : returned (.duInt32 1 3 [0, 0, 1])
    = some (.units [.unit ⟨1, 2, 3, .errTypeLength 4, [0, 0, 1]⟩]) := by decide
theorem test_string_drops_invalid : returned (.duString 6 5 [0x41, 0xFF, 0x42, 0xC0, 0x43])
    = some (.units [.unit ⟨6, 3, 5, .strV [0x41, 0x42, 0x43], [0x41, 0xFF, 0x42, 0xC0, 0x43]⟩]) := by decide
theorem test_string_surrogate : returned (.duString 6 3 [0xED, 0xA0, 0x80])
    = some (.units [.unit ⟨6, 3, 3, .strV [], [0xED, 0xA0, 0x80]⟩]) := by decide
theorem test_enum8_unsigned : returned (.duEnum8 4 1 [0xFF])
    = some (.units [.unit ⟨4, 4, 1, .enum8V 255, [0xFF]⟩]) := by decide
theorem test_bitmap32_unsigned : returned (.duBitmap32 5 4 [0x80, 0, 0, 1])
    = some (.units [.unit ⟨5, 5, 4, .bitmap32V 2147483649, [0x80, 0, 0, 1]⟩]) := by decide
theorem test_unknown_keeps_type : returned (.duUnknown 7 255 0 [])
    = some (.units [.unit ⟨7, 255, 0, .errUnknownType, []⟩]) := by decide
theorem test_parse_e5 : returned (.duParse [1, 2, 0, 3, 0, 0, 1, 2, 4, 0, 1, 7])
    = some (.units [.unit ⟨1, 2, 3, .errTypeLength 4, [0, 0, 1]⟩, .unit ⟨2, 4, 1, .enum8V 7, [7]⟩]) := by
  decide
theorem test_parse_value_cut : returned (.duParse [1, 2, 0, 4, 0])
    = some (.units [.err (.dataUnitValueTruncated [1, 2, 0, 4, 0])]) := by decide
theorem test_checksum_wraps : returned (.checksum [0xFF, 0x01]) = some (.byte 0) := by decide
theorem test_checksum_order : returned (.checksum [3, 0, 7, 8, 1, 2, 0, 4, 0, 0, 0, 0x7B])
    = some (.byte 0x94) := by decide
theorem test_find_after_restart : returned (.findMarker [0, 0xFF, 0x55, 0x55, 0xAA, 3])
    = some (.index (some 3)) := by decide
theorem test_find_none : returned (.findMarker [0xAA, 0x55]) = some (.index none) := by decide
theorem test_reset_empties : (after (exec .opReset (holding [1, 2, 3]))).map (·.buf) = some [] := by decide
theorem test_push_appends : (after (exec (.opPush [0xAA, 3]) (holding [0x11, 0x55]))).map (·.buf)
    = some [0x11, 0x55, 0xAA, 3] := by decide
theorem test_drain_orphan : fed State.reset [0x55, 0x55, 0xAA, 3, 0, 0, 0, 3]
    = some ([.orphan [0x55], .packet ⟨3, 0, 0, [], 3, []⟩], []) := by decide
theorem test_drain_split_marker : fed (holding [0x55]) [0xAA]
    = some ([.pktError (.frameTooShort [0x55, 0xAA])], []) := by decide

/-! Hypotheses met, statement by statement. -/

/-- PushAppendsItsChunk: exactly up to the caps, and one byte past BUF_CAP with a chunk of CHUNK_MAX bytes. -/
theorem witness_push :
    ((capped [1, 2]).fe = {} ∧ (∀ m, (capped [1, 2]).cfg.chunkMax = some m → ([3, 4] : List Byte).length ≤ m) ∧
      (∀ cap, (capped [1, 2]).cfg.bufCap = some cap → 2 + ([3, 4] : List Byte).length ≤ cap)) ∧
    ((∀ m, (capped [1, 2]).cfg.chunkMax = some m → ([3, 4, 5] : List Byte).length ≤ m) ∧
      (capped [1, 2]).cfg.bufCap = some 4 ∧ 4 < 2 + ([3, 4, 5] : List Byte).length) := by
  simp [capped, State.reset, defaultConfig]

theorem witness_push_empty : (capped [1, 2, 3, 4]).fe = {} ∧
    (∀ cap, (capped [1, 2, 3, 4]).cfg.bufCap = some cap → 4 + ([] : List Byte).length ≤ cap) := by
  simp [capped, State.reset, defaultConfig]

/-- PushRefusedDuringDrainOrTooLong. -/
theorem witness_push_refused : ({ State.reset with fe := { m := some (some 0) } } : State).fe ≠ {} ∧
    (capped []).fe = {} ∧ (capped []).cfg.chunkMax = some 3 ∧ 3 < ([1, 2, 3, 4] : List Byte).length := by
  decide

theorem witness_no_marker : NoMarker [0xAA, 0x55] := noMarker_of_range (by decide)

theorem witness_marker : ¬ NoMarker [0x55, 0xAA] := fun h => h 0 (by decide)

/-- DrainContractIsAFunction and the relation it is about: its three constructors. -/
theorem witness_drained_idle : Drained defaultConfig [0xAA, 0x55] [] [0xAA, 0x55] := .idle witness_no_marker

theorem witness_drained_eager : Drained defaultConfig mark [.pktError (.frameTooShort mark)] [] :=
  .eager (orphan := []) (body := []) ⟨by decide, by decide⟩ (noMarker_of_range (by decide))
    (.tooShort (by decide))

theorem witness_drained_bounded : Drained defaultConfig (0x01 :: (mark ++ mark))
    [.orphan [0x01], .pktError (.frameTooShort mark), .pktError (.frameTooShort mark)] [] :=
  .bounded (orphan := [0x01]) (body := []) (rest := mark) ⟨by decide, by decide⟩ ⟨by decide, by decide⟩
    (.tooShort (by decide)) witness_drained_eager

/-- OneDecodeAttemptPerMarker. -/
theorem witness_drain_step : ∃ t, drainStep (holding mark) = .ok t := ⟨_, rfl⟩

/-- AdjacentMarkersGiveTooShort. -/
theorem witness_adjacent : (holding [0x55, 0xAA, 0x55, 0xAA]).buf = mark ++ mark ++ [] := by decide

/-- OrphanBytesStayOutOfPackets: an orphan that ends in 0x55. -/
theorem witness_orphan : ([0x55] : List Byte) ≠ [] ∧
    (holding [0x55, 0x55, 0xAA, 3]).buf = [0x55] ++ mark ++ [3] ∧
    FirstMarker (holding [0x55, 0x55, 0xAA, 3]).buf ([0x55] : List Byte).length :=
  ⟨by decide, by decide, by decide, by decide⟩

/-- ChunkCutsThatChangeNothing: a cut inside the first marker, and a cut before a marker. -/
theorem witness_cuts : State.reset.fe = {} ∧ State.reset.cfg.bufCap = none ∧ State.reset.cfg.chunkMax = none ∧
    NoMarker (State.reset.buf ++ [0x11, 0x55]) ∧
    ∃ rest, ([0x55, 0xAA, 3] : List Byte) = mark ++ rest :=
  ⟨rfl, rfl, rfl, noMarker_of_range (by decide), [3], rfl⟩

/-- SplitMarkerIsLost: the boundary chunk holds the 0xAA alone. -/
theorem witness_split : State.reset.fe = {} ∧ ¬ NoMarker (State.reset.buf ++ mark) ∧ NoMarker [0xAA] :=
  ⟨rfl, witness_marker, noMarker_of_range (by decide)⟩

/-- OnlyPushDrainResetTouchBuf, EventsAreOnlyAppended, ParametersAreNeverWritten,
RegistersHoldNoValueAfterwards, RequestsAreTheHostsAlone: one instruction for each arm. -/
theorem witness_each_arm : (∃ t, exec (.opPush [1]) (holding mark) = .next t) ∧
    (∃ t, exec .opDrain (holding mark) = .next t) ∧ (∃ t, exec .opReset (holding mark) = .next t) ∧
    (∃ t, exec (.frame mark) (holding mark) = .next t) :=
  ⟨⟨_, rfl⟩, ⟨_, rfl⟩, ⟨_, rfl⟩, ⟨_, rfl⟩⟩

/-- EveryOperationIsTotal. -/
theorem witness_not_push : ∀ chunk, Instr.opDrain ≠ .opPush chunk := by simp

/-- StepRunsTheDecodedInstruction: its three clauses. -/
theorem witness_step :
    (({ State.reset with pending := [.search mark, .hostOp 2 []] } : State).pending
      = .search mark :: [.hostOp 2 []] ∧ decode (.search mark) = .ok (.findMarker mark)) ∧
    State.reset.pending = [] ∧
    ({ State.reset with pending := [.hostOp 3 [1]] } : State).pending = .hostOp 3 [1] :: [] :=
  ⟨⟨rfl, rfl⟩, rfl, rfl⟩

/-- StepKeepsTheInvariant: a drain that emits an ORPHAN and an error, from a block that already holds an
event. -/
theorem witness_invariant : ∃ s t : State, Inv s ∧ step s = .next t ∧ s.evq ≠ [] ∧ t.evq ≠ s.evq := by
  refine ⟨{ holding (0x01 :: mark) with evq := [.orphan [2]], pending := [.hostOp 2 []] }, _, ?_, rfl,
    by decide, by decide⟩
  refine ⟨⟨rfl, rfl, rfl, rfl⟩, ?_, fun e he => ?_⟩
  · simp [WithinCap, holding, State.reset, defaultConfig]
  · rw [List.mem_singleton.1 he]
    exact ⟨by decide, noMarker_of_range (by decide)⟩

/-- DecodeOfEncode: well-formed terms at the ends of the field ranges. -/
theorem witness_well_formed : wellFormed (.frame mark) = true ∧ wellFormed (.duRaw 255 0 []) = true ∧
    wellFormed (.duBool 0 1 [1]) = true ∧ wellFormed (.duInt32 0 4 [0, 0, 0, 0]) = true ∧
    wellFormed (.duString 0 256 (List.replicate 256 0x41)) = true ∧ wellFormed (.duEnum8 0 1 [1]) = true ∧
    wellFormed (.duBitmap32 0 4 [0, 0, 0, 0]) = true ∧ wellFormed (.duUnknown 0 6 0 []) = true ∧
    wellFormed (.duUnknown 0 255 0 []) = true ∧ wellFormed (.duParse []) = true ∧
    wellFormed (.checksum []) = true ∧ wellFormed (.findMarker []) = true ∧ wellFormed .opReset = true ∧
    wellFormed (.opPush []) = true ∧ wellFormed .opDrain = true := by decide +kernel

/-- DataUnitsDecodeInSequence. -/
theorem witness_unit : ([] : List Byte).length = (0 : Half).toNat ∧
    (List.replicate 256 (0 : Byte)).length = (0x0100 : Half).toNat ∧
    decodeUnit [9, 0, 0, 1, 0xA1, 7] = .ok (.duRaw 9 1 [0xA1], [7]) := by decide +kernel

/-- TypeByteSelectsTheCase, UnknownValue: the ends of the range 6 to 255. -/
theorem witness_type : 6 ≤ (6 : Byte).toNat ∧ 6 ≤ (255 : Byte).toNat := by decide

/-- FrameContractIsAFunction, RecordsContractIsAFunction: the relations at the ends of the length checks. -/
theorem witness_frame_short : FrameResult defaultConfig (List.replicate 6 0)
    (.err (.frameTooShort (List.replicate 6 0))) := .tooShort (by decide)

theorem witness_frame_mismatch : FrameResult defaultConfig [0x55, 0xAA, 0, 0, 0, 1, 1]
    (.err (.payloadLengthMismatch [0x55, 0xAA, 0, 0, 0, 1, 1])) := .lengthMismatch (by decide) (by decide)

theorem witness_frame_sum : FrameResult defaultConfig [0x55, 0xAA, 0, 0, 0, 0, 1]
    (.err (.checksumMismatch 0 1 [0x55, 0xAA, 0, 0, 0, 0, 1])) :=
  .sumMismatch (pay := []) (tail := []) rfl (by decide)

theorem witness_frame_accepted : FrameResult defaultConfig [0x55, 0xAA, 3, 0, 0, 0, 3]
    (.packet ⟨3, 0, 0, [], 3, []⟩) :=
  .accepted (pay := []) (tail := []) (cmd := 0) rfl rfl (by decide) .done

theorem witness_records : Records [9, 0, 0, 0, 1]
    [.unit ⟨9, 0, 0, .rawV [], []⟩, .err (.dataUnitHeaderTruncated [1])] :=
  .unit (val := []) rfl rfl (.raw []) (.headerCut (by decide) (by decide))

/-- ShortFrameIsTooShort: 0 and 6 bytes. -/
theorem witness_short : ([] : List Byte).length < 7 ∧ (List.replicate 6 (0x55 : Byte)).length < 7 := by decide

/-- FrameBelowTotalMismatches: 7 bytes with LEN 1, and LEN 255 with one byte missing. -/
theorem witness_below_total : (1 ≤ ([0] : List Byte).length ∧ ([0] : List Byte).length < (1 : Byte).toNat + 1) ∧
    (1 ≤ (List.replicate 255 (0 : Byte)).length ∧
      (List.replicate 255 (0 : Byte)).length < (255 : Byte).toNat + 1) := by decide +kernel

/-- WrongChecksumMismatches: the checksum of the other convention (V-P), LEN 0. -/
theorem witness_wrong_sum : ([] : List Byte).length = (0 : Byte).toNat ∧
    sumMod256 (covered State.reset.cfg 0x55 0xAA (3 :: 0 :: 0 :: 0 :: [])) ≠ 2 := by decide

/-- GoodFrameGivesItsPacket, under both values of CKSUM_START (V-P, "minimal, version 3"). -/
theorem witness_good_sum : ([] : List Byte).length = (0 : Byte).toNat ∧
    sumMod256 (covered State.reset.cfg 0x55 0xAA (3 :: 0 :: 0 :: 0 :: [])) = 3 ∧
    sumMod256 (covered { defaultConfig with cksumStart := .markerIncluded } 0x55 0xAA (3 :: 0 :: 0 :: 0 :: []))
      = 2 := by decide

/-- TrailingBytesAreIgnored, PacketInvariants. -/
theorem witness_accepted : ∃ t p, exec (.frame [0x55, 0xAA, 3, 0, 0, 0, 3]) State.reset = .next t ∧
    t.ret = .result (.packet p) := ⟨_, _, rfl, rfl⟩

/-- FrameRoundTrip: the longest payload. -/
theorem witness_round_trip : (List.replicate 255 (0 : Byte)).length ≤ 255 := by decide +kernel

/-- SingleByteCorruptionIsDetected: VERSION and CHECKSUM, the first and the last offset it covers. -/
theorem witness_corruption : ∃ t p, exec (.frame [0x55, 0xAA, 3, 0, 0, 0, 3]) State.reset = .next t ∧
    t.ret = .result (.packet p) ∧ 6 + p.length.toNat = 6 ∧
    (2 ≤ 2 ∧ 2 ≠ 5 ∧ ([0x55, 0xAA, 3, 0, 0, 0, 3] : List Byte)[2]? ≠ some 4) ∧
    (2 ≤ 6 ∧ 6 ≠ 5 ∧ ([0x55, 0xAA, 3, 0, 0, 0, 3] : List Byte)[6]? ≠ some 4) :=
  ⟨_, _, rfl, rfl, rfl, by decide, by decide⟩

/-- HeaderUnparsableIsNeverProduced: an error returned, units returned, and an error event emitted. -/
theorem witness_errors : (∃ t, exec (.frame mark) State.reset = .next t) ∧
    (∃ t us, exec (.duParse [1]) State.reset = .next t ∧ t.ret = .units us) ∧
    (∃ t, exec .opDrain (holding mark) = .next t ∧ .pktError (.frameTooShort mark) ∈ t.evq) :=
  ⟨⟨_, rfl⟩, ⟨_, _, rfl, rfl⟩, ⟨_, rfl, by decide⟩⟩

/-- Int32Value, Bitmap32Value, Enum8Value: wrong widths on both sides. -/
theorem witness_widths : ([0, 0, 0] : List Byte).length ≠ 4 ∧ ([0, 0, 0, 0, 0] : List Byte).length ≠ 4 ∧
    ([] : List Byte).length ≠ 1 ∧ ([0, 0] : List Byte).length ≠ 1 := by decide

/-- Int32Value: the two sides of the sign boundary; Bitmap32Value: the top and the bottom bit. -/
theorem witness_sign : 2147483647 = (0x7F : Byte).toNat * 2 ^ 24 + (0xFF : Byte).toNat * 2 ^ 16
      + (0xFF : Byte).toNat * 2 ^ 8 + (0xFF : Byte).toNat ∧
    2147483648 = (0x80 : Byte).toNat * 2 ^ 24 + (0 : Byte).toNat * 2 ^ 16 + (0 : Byte).toNat * 2 ^ 8
      + (0 : Byte).toNat ∧
    (0 < 32 ∧ ([1, 2, 3, 4] : List Byte)[3 - 0 / 8]? = some 4) ∧
    (31 < 32 ∧ ([1, 2, 3, 4] : List Byte)[3 - 31 / 8]? = some 1) := by decide

/-- StringValue: a value that is well-formed text. -/
theorem witness_text : Utf8Text [0xE2, 0x82, 0xAC] :=
  .cons (q := [0xE2, 0x82, 0xAC]) (rest := [])
    (.threeE1 ⟨by decide, by decide⟩ ⟨by decide, by decide⟩ ⟨by decide, by decide⟩) .nil

/-- CutHeaderEndsTheUnits, CutValueEndsTheUnits, LaterUnitsAreUnaffected: complete records before, a cut of 1
and of 3 bytes, and a value one byte short. -/
theorem witness_complete : ∃ us, exec (.duParse [1, 2, 0, 3, 0, 0, 1]) State.reset
      = .next { State.reset.release with ret := .units us } ∧ (∀ e, .err e ∉ us) ∧
    (1 ≤ ([1] : List Byte).length ∧ ([1, 2, 3] : List Byte).length < 4) ∧
    ([0xEE] : List Byte).length < (0 : Byte).toNat * 256 + (2 : Byte).toNat :=
  ⟨[.unit ⟨1, 2, 3, .errTypeLength 4, [0, 0, 1]⟩], rfl, by simp, by decide, by decide⟩

theorem witness_later : ∃ us, exec (.duParse [2, 4, 0, 1, 7]) State.reset
    = .next { State.reset.release with ret := .units us } := ⟨_, rfl⟩

/-- UnitsTileThePayload with and without a terminal error. -/
theorem witness_tiling : (∃ us, exec (.duParse [1, 1, 0, 1, 1, 1, 2]) State.reset
      = .next { State.reset.release with ret := .units us }) ∧
    (∃ us, exec (.duParse [9, 0, 0, 0]) State.reset = .next { State.reset.release with ret := .units us }) :=
  ⟨⟨_, rfl⟩, ⟨_, rfl⟩⟩

set_option maxRecDepth 20000 in
/-- LongValuesNeverComplete: a payload of 255 bytes that is one unit with VLEN 251. -/
theorem witness_longest : (9 :: 0 :: 0 :: 251 :: List.replicate 251 (0x11 : Byte)).length ≤ 255 ∧
    ∃ us d, exec (.duParse (9 :: 0 :: 0 :: 251 :: List.replicate 251 0x11)) State.reset
      = .next { State.reset.release with ret := .units us } ∧ .unit d ∈ us ∧ d.vlen.toNat = 251 :=
  ⟨by decide +kernel, [.unit ⟨9, 0, 251, .rawV (List.replicate 251 0x11), List.replicate 251 0x11⟩], _, by rfl,
    List.mem_singleton.2 rfl, rfl⟩

/-- LoneUnitIsItsPayload. -/
theorem witness_lone : decodeUnit [7, 6, 0, 1, 1] = .ok (.duUnknown 7 6 1 [1], []) := rfl

/-- ChecksumDetectsOneByteNotTwo: the last byte changed, and two bytes by +1 and -1. -/
theorem witness_changed : (([3, 4] : List Byte)[1]? = some 4 ∧ (5 : Byte) ≠ 4) ∧
    (0 ≠ 1 ∧ ([3, 4] : List Byte)[0]? = some 3 ∧
      (4 : Byte).toNat + (3 : Byte).toNat = (3 : Byte).toNat + (4 : Byte).toNat) := by decide

end Sys2Proof.Tests
end

section
/-! PROOFS. The statements of 10_state.md: what OP.RESET leaves (R37), which instructions touch BUF (R21), that no
instruction writes a parameter (R38), and that no register holds a value afterwards (R23). First what each
instruction leaves behind when it completes, one lemma per kind of instruction; then that the stand-alone calls
do not read BUF; then the statements. -/

namespace Sys2Proof.Machine

open Sys2Proof.Contract

/-! What a completed instruction leaves behind. -/

/-- The stand-alone calls of the four components (00_scope.md R2, R13): all but the three host operations. -/
def StandAlone : Instr → Prop
  | .opReset => False
  | .opPush _ => False
  | .opDrain => False
  | _ => True

/-- The end of a call that succeeded. -/
@[simp] theorem returning_ok (v : Ret) (s : State) : returning (.ok (v, s)) = .next (s.release.withRet v) := rfl

theorem exec_opReset (s : State) :
    exec .opReset s = .next (((s.release.withBuf []).withRet .nothing).clearEvents) := rfl

theorem exec_opReset_next {s t : State} (h : exec .opReset s = .next t) :
    t = ((s.release.withBuf []).withRet .nothing).clearEvents :=
  Host.Outcome.next.inj (h.symm.trans (exec_opReset s))

theorem exec_opPush_next {chunk : List Byte} {s t : State} (h : exec (.opPush chunk) s = .next t) :
    t = s.withBuf (s.buf ++ chunk) := by
  simp only [exec, execOpPush] at h
  split_ifs at h
  exact (Host.Outcome.next.inj h).symm

/-- OP.DRAIN completes in every state, as its contract says. -/
theorem exec_opDrain_spec (s : State) : ∃ evs b', Drained s.cfg s.buf evs b' ∧
    exec .opDrain s = .next { s.release with buf := b', evq := s.evq ++ evs } := by
  obtain ⟨evs, b', s', hloop, hdrained, hrelease⟩ := drainLoop_spec (s.buf.length / 2) s (by omega)
  exact ⟨evs, b', hdrained, by simp only [exec, execOpDrain, hloop, finishing, hrelease]⟩

theorem exec_opDrain_next {s t : State} (h : exec .opDrain s = .next t) : ∃ evs b', Drained s.cfg s.buf evs b' ∧
    t = { s.release with buf := b', evq := s.evq ++ evs } := by
  obtain ⟨evs, b', hdrained, hrun⟩ := exec_opDrain_spec s
  exact ⟨evs, b', hdrained, Host.Outcome.next.inj (h.symm.trans hrun)⟩

/-- What a drain leaves in BUF is the end of what was there. -/
theorem drained_suffix {cfg : Config} {b b' : List Byte} {evs : List Event} (h : Drained cfg b evs b') :
    b' <:+ b := by
  induction h with
  | idle => exact List.suffix_rfl
  | eager => exact List.nil_suffix
  | bounded _ _ _ _ ih => exact ih.trans (List.suffix_append _ _)

/-! An operation that does not read BUF does the same whatever BUF holds: it commutes with writing BUF. The simp
lemmas below push the write outwards, through one register write or one operation at a time, so that a sequence
of operations with a lemma each has its own from `map_bind` and `bind_map_left`. -/

@[simp] theorem map_ok {α β : Type} (f : α → β) (a : α) :
    (f <$> (Except.ok a : Except Fault α)) = .ok (f a) := rfl

@[simp] theorem State.withDu_withBuf (s : State) (b : List Byte) (x : DuRegs) :
    (s.withBuf b).withDu x = (s.withDu x).withBuf b := rfl

@[simp] theorem State.withPd_withBuf (s : State) (b : List Byte) (x : PdRegs) :
    (s.withBuf b).withPd x = (s.withPd x).withBuf b := rfl

section
variable (b : List Byte) (s : State)

@[simp] theorem appendOut_withBuf (u : UnitResult) :
    appendOut u (s.withBuf b) = (State.withBuf · b) <$> appendOut u s := by
  simp [appendOut]

@[simp] theorem readHeader_withBuf (p : List Byte) :
    readHeader p (s.withBuf b) = (State.withBuf · b) <$> readHeader p s := by
  simp [readHeader]

@[simp] theorem takeValue_withBuf (p : List Byte) :
    takeValue p (s.withBuf b) = (State.withBuf · b) <$> takeValue p s := by
  simp [takeValue]

@[simp] theorem interpret_withBuf :
    interpret (s.withBuf b) = (State.withBuf · b) <$> interpret s := by
  simp [interpret, appendUnit]

/-- DU.PARSE reads its payload and its own registers: by induction on the iterations left. -/
theorem unitLoop_withBuf (k : Nat) (p : List Byte) :
    unitLoop k p (s.withBuf b) = (State.withBuf · b) <$> unitLoop k p s := by
  induction k generalizing s with
  | zero => rfl
  | succ k ih => simp [unitLoop, ih, apply_ite]

@[simp] theorem closeUnits_withBuf :
    closeUnits (s.withBuf b) = Prod.map id (State.withBuf · b) <$> closeUnits s := by
  simp [closeUnits]

@[simp] theorem parseUnits_withBuf (p : List Byte) :
    parseUnits p (s.withBuf b) = Prod.map id (State.withBuf · b) <$> parseUnits p s := by
  have hopen : openUnits (s.withBuf b) = (openUnits s).withBuf b := rfl
  simp [parseUnits, hopen, unitLoop_withBuf]

@[simp] theorem parseHeader_withBuf (f : List Byte) :
    parseHeader f (s.withBuf b) = (State.withBuf · b) <$> parseHeader f s := by
  simp [parseHeader]

@[simp] theorem computeTotal_withBuf :
    computeTotal (s.withBuf b) = (State.withBuf · b) <$> computeTotal s := by
  simp [computeTotal]

@[simp] theorem slicePayload_withBuf (f : List Byte) :
    slicePayload f (s.withBuf b) = (State.withBuf · b) <$> slicePayload f s := by
  simp [slicePayload]

@[simp] theorem calcChecksum_withBuf (f : List Byte) :
    calcChecksum f (s.withBuf b) = (State.withBuf · b) <$> calcChecksum f s := by
  simp [calcChecksum]

@[simp] theorem buildPacket_withBuf :
    buildPacket (s.withBuf b) = Prod.map id (State.withBuf · b) <$> buildPacket s := by
  simp [buildPacket]

@[simp] theorem checkAndBuild_withBuf (f : List Byte) :
    checkAndBuild f (s.withBuf b) = Prod.map id (State.withBuf · b) <$> checkAndBuild f s := by
  simp [checkAndBuild, apply_ite]

@[simp] theorem packetSteps_withBuf (f : List Byte) :
    packetSteps f (s.withBuf b) = Prod.map id (State.withBuf · b) <$> packetSteps f s := by
  cases hshort : frameTooShort f <;> simp [packetSteps, hshort, apply_ite]

theorem decodePacket_withBuf (f : List Byte) :
    decodePacket f (s.withBuf b) = Prod.map id (State.withBuf · b) <$> decodePacket f s := by
  simp [decodePacket]

end

/-! The stand-alone calls. -/

/-- What a search answers is settled by the bytes alone. -/
theorem exists_search_eq (bytes : List Byte) : ∃ r, ∀ s, search bytes s = .ok (r, s.withMd none) := by
  by_cases hno : NoMarker bytes
  · exact ⟨none, search_noMarker hno⟩
  · obtain ⟨r, -, hr⟩ := search_spec bytes State.reset
    cases r with
    | none => exact absurd hr hno
    | some i => exact ⟨some i, search_first hr⟩

/-- A stand-alone call completes with one answer, whatever BUF holds, and changes nothing else but the working
registers, which it gives up. -/
theorem exec_standAlone {i : Instr} (hi : StandAlone i) (s : State) :
    ∃ v, ∀ b, exec i (s.withBuf b) = .next ((s.withBuf b).release.withRet v) := by
  cases i with
  | opReset | opPush _ | opDrain => exact hi.elim
  | frame f =>
    obtain ⟨r, du, hrun, -⟩ := decodePacket_spec f s
    refine ⟨.result r, fun b => ?_⟩
    simp only [exec, execFrame, decodePacket_withBuf, hrun, map_ok, Prod.map, ok_bind, returning_ok]
    rfl
  | duParse p =>
    obtain ⟨us, hrun, -⟩ := parseUnits_spec p s
    refine ⟨.units us, fun b => ?_⟩
    simp only [exec, execDuParse, parseUnits_withBuf, hrun, map_ok, Prod.map, ok_bind, returning_ok]
    rfl
  | findMarker bytes =>
    obtain ⟨r, hrun⟩ := exists_search_eq bytes
    refine ⟨.index r, fun b => ?_⟩
    simp only [exec, execFindMarker, hrun, ok_bind, returning_ok, State.release_withMd]
  | checksum bytes => exact ⟨_, fun _ => rfl⟩
  | _ => exact ⟨_, fun _ => runUnit_eq _ _ _ _ _ _⟩

/-- The same for a call that is known to complete. -/
theorem exec_standAlone_next {i : Instr} (hi : StandAlone i) {s t : State} (h : exec i s = .next t) :
    ∃ v, t = s.release.withRet v ∧ ∀ b, exec i (s.withBuf b) = .next (t.withBuf b) := by
  obtain ⟨v, hv⟩ := exec_standAlone hi s
  obtain rfl : s.release.withRet v = t := Host.Outcome.next.inj ((hv s.buf).symm.trans h)
  exact ⟨v, rfl, hv⟩

/-! The statements. -/

/-- Settles O15: OP.DRAIN by `drained_suffix`, the stand-alone calls by `exec_standAlone_next`. -/
theorem onlyPushDrainResetTouchBuf : Obligations.OnlyPushDrainResetTouchBuf := by
  intro i s t h
  cases i with
  | opPush chunk => rw [exec_opPush_next h]; rfl
  | opDrain =>
    obtain ⟨evs, b', hdrained, rfl⟩ := exec_opDrain_next h
    exact ⟨_, List.suffix_iff_eq_drop.1 (drained_suffix hdrained)⟩
  | opReset => rw [exec_opReset_next h]; rfl
  | _ =>
    obtain ⟨v, rfl, hblind⟩ := exec_standAlone_next (by trivial) h
    exact ⟨rfl, hblind⟩

/-- Settles O17: no kind of instruction writes the parameters. -/
theorem parametersAreNeverWritten : Obligations.ParametersAreNeverWritten := by
  intro i s t h
  cases i with
  | opPush chunk => rw [exec_opPush_next h]; rfl
  | opDrain => obtain ⟨evs, b', -, rfl⟩ := exec_opDrain_next h; rfl
  | opReset => rw [exec_opReset_next h]; rfl
  | _ => obtain ⟨v, rfl, -⟩ := exec_standAlone_next (by trivial) h; rfl

/-- Settles O18: every instruction but OP.PUSH ends by releasing the registers. -/
theorem registersHoldNoValueAfterwards : Obligations.RegistersHoldNoValueAfterwards := by
  intro i s t h
  cases i with
  | opPush chunk => rw [exec_opPush_next h]; exact ⟨rfl, rfl, rfl, rfl⟩
  | opDrain => obtain ⟨evs, b', -, rfl⟩ := exec_opDrain_next h; exact ⟨rfl, rfl, rfl, rfl⟩
  | opReset => rw [exec_opReset_next h]; exact ⟨rfl, rfl, rfl, rfl⟩
  | _ => obtain ⟨v, rfl, -⟩ := exec_standAlone_next (by trivial) h; exact ⟨rfl, rfl, rfl, rfl⟩

/-- Settles O1: OP.RESET is one write of each field. -/
theorem resetEmptiesBufferAndQueue : Obligations.ResetEmptiesBufferAndQueue :=
  ⟨fun s => ⟨_, exec_opReset s, rfl, rfl, ⟨rfl, rfl, rfl, rfl⟩, rfl⟩, rfl, rfl, ⟨rfl, rfl, rfl, rfl⟩⟩

end Sys2Proof.Machine
end

section
/-! PROOFS. The statements of 40_checksum.md: what CHECKSUM returns (R111). First the number that a checksum byte
stands for, and the state that CHECKSUM leaves; then the statement. -/

namespace Sys2Proof.Machine

open Sys2Proof.Contract

theorem sumMod256_toNat (b : List Byte) : (sumMod256 b).toNat = (b.map BitVec.toNat).sum % 256 :=
  (BitVec.toNat_ofNat _ 8).trans (Nat.mod_mod _ 256)

theorem checksumOf_toNat (b : List Byte) : (checksumOf b).toNat = (b.map BitVec.toNat).sum % 256 := by
  rw [checksumOf_eq, sumMod256_toNat]

/-- CHECKSUM completes in every state: it returns one byte and gives up the working registers. -/
theorem exec_checksum (b : List Byte) (s : State) :
    exec (.checksum b) s = .next { s.release with ret := .byte (checksumOf b) } := rfl

/-- Settles O54: the returned byte is `checksumOf`, whose value is the sum of the bytes modulo 256. -/
theorem checksumIsTheSumMod256 : Obligations.ChecksumIsTheSumMod256 := fun b s =>
  ⟨checksumOf b, exec_checksum b s, checksumOf_toNat b, Nat.le_of_lt_succ (checksumOf b).isLt⟩

end Sys2Proof.Machine
end

section
/-! PROOFS. The statements of 41_data_unit_decoder.md: the record loop (R121), what a cut header (R122) and a cut
value (R124) leave at its end, and the readings of TYPE 0 and 1 (R127, R128). First that the contracts of a value's
reading give one answer each: the text kept (R138), the reading (R126) and the records (R121), so that DU.PARSE
answers the units `us` exactly when `Records p us`. Then what records after records are; then the statements. -/

namespace Sys2Proof.Machine

open Sys2Proof.Contract

/-! The text filter gives one answer. -/

/-- The length of a well-formed sequence, read off its first byte (the left column of R138's shapes). -/
def leadLength (a : Byte) : Nat :=
  if a.toNat < 0x80 then 1 else if a.toNat < 0xE0 then 2 else if a.toNat < 0xF0 then 3 else 4

theorem utf8Sequence_length {a : Byte} {tail : List Byte} (h : Utf8Sequence (a :: tail)) :
    (a :: tail).length = leadLength a := by
  cases h <;> grind [InRange, leadLength]

/-- No well-formed sequence begins another one: what begins the bytes is settled by its first byte. -/
theorem utf8Sequence_head_unique {q q' tail tail' : List Byte} (hq : Utf8Sequence q) (hq' : Utf8Sequence q')
    (heq : q ++ tail = q' ++ tail') : q = q' ∧ tail = tail' := by
  have hlen : q.length = q'.length := by
    match q, q', hq, hq' with
    | a :: _, a' :: _, hq, hq' =>
      obtain rfl : a = a' := (List.cons.inj heq).1
      rw [utf8Sequence_length hq, utf8Sequence_length hq']
  exact List.append_inj heq hlen

theorem utf8Kept_unique {b kept kept' : List Byte} (h : Utf8Kept b kept) (h' : Utf8Kept b kept') :
    kept = kept' := by
  induction h generalizing kept' with
  | done =>
    generalize hb : ([] : List Byte) = b at h'
    cases h' with
    | done => rfl
    | keep hq => obtain ⟨rfl, -⟩ := List.append_eq_nil_iff.1 hb.symm; nomatch hq
    | drop => nomatch hb
  | @keep q rest kept hq _ ih =>
    generalize hb : q ++ rest = b at h'
    cases h' with
    | done => obtain ⟨rfl, -⟩ := List.append_eq_nil_iff.1 hb; nomatch hq
    | keep hq' hr' =>
      obtain ⟨rfl, rfl⟩ := utf8Sequence_head_unique hq hq' hb
      rw [ih hr']
    | drop hx => exact absurd hq (hx _ _ hb.symm)
  | @drop x rest kept hx _ ih =>
    generalize hb : x :: rest = b at h'
    cases h' with
    | done => nomatch hb
    | keep hq' => exact absurd hq' (hx _ _ hb)
    | drop _ hr' => obtain ⟨rfl, rfl⟩ := List.cons.inj hb; exact ih hr'

theorem utf8Kept_eq_utf8Filter {b kept : List Byte} (h : Utf8Kept b kept) : kept = utf8Filter b :=
  utf8Kept_unique h (utf8Filter_spec b)

/-! The readings of a value, one equation per case. -/

theorem interpBool_eq (val : List Byte) : interpBool val = .boolV (decide (val = [1])) :=
  congrArg Value.boolV (Bool.eq_iff_iff.2 (by simp))

theorem interpInt32_of_length_ne {val : List Byte} (h : val.length ≠ 4) : interpInt32 val = .errTypeLength 4 := by
  unfold interpInt32
  split
  · exact absurd rfl h
  · rfl

theorem interpEnum8_of_length_ne {val : List Byte} (h : val.length ≠ 1) : interpEnum8 val = .errTypeLength 1 := by
  unfold interpEnum8
  split
  · exact absurd rfl h
  · rfl

theorem interpBitmap32_of_length_ne {val : List Byte} (h : val.length ≠ 4) :
    interpBitmap32 val = .errTypeLength 4 := by
  unfold interpBitmap32
  split
  · exact absurd rfl h
  · rfl

theorem interp_of_six_le {tag : Byte} (val : List Byte) (h : 6 ≤ tag.toNat) : interp tag val = .errUnknownType := by
  have hne : ∀ t : Byte, t.toNat < 6 → tag ≠ t := by rintro t ht rfl; omega
  simp [interp, interpUnknown, hne]

/-- The contract of a value's reading (R126) leaves no choice: by its cases. -/
theorem interprets_eq_interp {tag : Byte} {val : List Byte} {v : Value} (h : Interprets tag val v) :
    v = interp tag val := by
  cases h with
  | raw | boolTrue | enum8 => rfl
  | boolFalse h => exact ((interpBool_eq val).trans (by rw [decide_eq_false h])).symm
  | int32 hu => subst hu; simp only [← be32u_toNat]; rfl
  | int32Width h => exact (interpInt32_of_length_ne h).symm
  | string h => exact congrArg Value.strV (utf8Kept_eq_utf8Filter h)
  | enum8Width h => exact (interpEnum8_of_length_ne h).symm
  | bitmap32 hn => exact congrArg Value.bitmap32V (BitVec.eq_of_toNat_eq (hn.trans (be32u_toNat _ _ _ _).symm))
  | bitmap32Width h => exact (interpBitmap32_of_length_ne h).symm
  | unknown val h => exact (interp_of_six_le val h).symm

/-! Records: one answer for each payload, and records after records. -/

/-- What bytes with a whole header at their head can give (R123 to R126): by the size of the value it declares. -/
theorem records_header_cases {id tag hi lo : Byte} {rest : List Byte} {us : List UnitResult}
    (h : Records (id :: tag :: hi :: lo :: rest) us) :
    (rest.length < hi.toNat * 256 + lo.toNat ∧
      us = [.err (.dataUnitValueTruncated (id :: tag :: hi :: lo :: rest))]) ∨
    ∃ val rest' us', rest = val ++ rest' ∧ val.length = hi.toNat * 256 + lo.toNat ∧
      us = .unit ⟨id, tag, be16 hi lo, interp tag val, val⟩ :: us' ∧ Records rest' us' := by
  cases h with
  | headerCut _ h4 => simp only [List.length_cons] at h4; omega
  | valueCut hcut => exact .inl ⟨hcut, rfl⟩
  | unit hv hl hval hr =>
    obtain rfl := BitVec.eq_of_toNat_eq (hv.trans (be16_toNat hi lo).symm)
    obtain rfl := interprets_eq_interp hval
    exact .inr ⟨_, _, _, rfl, hl.trans hv, rfl, hr⟩

theorem records_unique {p : List Byte} {us us' : List UnitResult} (h : Records p us) (h' : Records p us') :
    us = us' := by
  induction h generalizing us' with
  | done => cases h' with
    | done => rfl
    | headerCut h0 => exact absurd rfl h0
  | headerCut h0 h4 => cases h' with
    | done => exact absurd rfl h0
    | headerCut => rfl
    | valueCut | unit => simp only [List.length_cons] at h4; omega
  | valueCut hcut =>
    obtain ⟨-, rfl⟩ | ⟨val, rest, us', rfl, hl, -, -⟩ := records_header_cases h'
    · rfl
    · rw [List.length_append] at hcut; omega
  | unit hv hl hval _ ih =>
    obtain ⟨hcut, -⟩ | ⟨val, rest, us', happ, hl', rfl, hr'⟩ := records_header_cases h'
    · rw [List.length_append] at hcut; omega
    · obtain ⟨rfl, rfl⟩ := List.append_inj happ (by omega)
      rw [interprets_eq_interp hval, ih hr', BitVec.eq_of_toNat_eq (hv.trans (be16_toNat _ _).symm)]

/-- Records without a terminal error are followed by the records of the bytes after them (R137). -/
theorem records_append {p q : List Byte} {us us' : List UnitResult} (h : Records p us)
    (hcomplete : ∀ e, .err e ∉ us) (h' : Records q us') : Records (p ++ q) (us ++ us') := by
  induction h with
  | done => exact h'
  | headerCut | valueCut => exact absurd List.mem_cons_self (hcomplete _)
  | @unit id _ _ _ _ _ _ _ _ hv hl hval _ ih =>
    have happ := Records.unit (id := id) hv hl hval (ih fun e he => hcomplete e (List.mem_cons_of_mem _ he))
    simpa only [List.cons_append, List.append_assoc] using happ

/-! DU.PARSE as an instruction. -/

/-- DU.PARSE completes in every state with the records of its payload. -/
theorem exec_duParse_spec (p : List Byte) (s : State) : ∃ us, Records p us ∧
    exec (.duParse p) s = .next { s.release with ret := .units us } := by
  obtain ⟨us, hrun, hrec⟩ := parseUnits_spec p s
  exact ⟨us, hrec, by simp only [exec, execDuParse, hrun, ok_bind, returning_ok]; rfl⟩

/-- The units DU.PARSE answers are exactly those of its contract. -/
theorem exec_duParse_iff {p : List Byte} {us : List UnitResult} {s : State} :
    exec (.duParse p) s = .next { s.release with ret := .units us } ↔ Records p us := by
  obtain ⟨us', hrec, hrun⟩ := exec_duParse_spec p s
  constructor
  · intro h
    obtain rfl : us = us' := Ret.units.inj (congrArg State.ret (Host.Outcome.next.inj (h.symm.trans hrun)))
    exact hrec
  · intro h
    rw [records_unique h hrec, hrun]

/-! The statements. -/

/-- Settles O46: the record loop meets its contract, `exec_duParse_spec`. -/
theorem parseMeetsItsContract : Obligations.ParseMeetsItsContract := exec_duParse_spec

/-- Settles O48: the cut header is the only record of the bytes after the complete ones. -/
theorem cutHeaderEndsTheUnits : Obligations.CutHeaderEndsTheUnits := by
  intro p cut us s h hcomplete hpos hlt
  have hcut : Records cut [.err (.dataUnitHeaderTruncated cut)] := .headerCut (List.length_pos_iff.1 hpos) hlt
  exact exec_duParse_iff.2 (records_append (exec_duParse_iff.1 h) hcomplete hcut)

/-- Settles O49: the cut value is the only record of the bytes after the complete ones, whatever TYPE is. -/
theorem cutValueEndsTheUnits : Obligations.CutValueEndsTheUnits := by
  intro p rest id tag hi lo us s h hcomplete hlt
  exact exec_duParse_iff.2 (records_append (exec_duParse_iff.1 h) hcomplete (.valueCut hlt))

/-- Settles O39: a lone unit of TYPE 0 answers its value as it is. -/
theorem rawValue : Obligations.RawValue := fun id vlen val s => runUnit_eq id 0 vlen val (interpRaw val) s

/-- Settles O40: a lone unit of TYPE 1 answers the equality test `interpBool_eq` on its value. -/
theorem boolValue : Obligations.BoolValue := by
  intro id vlen val s
  rw [← interpBool_eq]
  exact runUnit_eq id 1 vlen val (interpBool val) s

end Sys2Proof.Machine
end

section
/-! PROOFS. The statements of 42_packet_decoder.md: FRAME meets its contract (R150), its answers to a short frame
(R152), to a wrong checksum (R157) and to a good frame (R158), and the round trip (R161). First that the contract
gives one answer for each frame, so that FRAME answers `r` exactly when `FrameResult` does; then the fields of a
frame that was built; then the statements. -/

namespace Sys2Proof.Machine

open Sys2Proof.Contract

/-! The contract of `decode_packet`: one answer for each frame. -/

/-- Steps 6 and 7 (R157, R158): what a frame that holds its payload gives, `ck` being the sum of what its checksum
covers and `rx` the checksum byte received. -/
def CheckedResult (ck rx ver hi lo len : Byte) (pay frame : List Byte) (r : PacketResult) : Prop :=
  (ck ≠ rx ∧ r = .err (.checksumMismatch ck rx frame)) ∨
  (ck = rx ∧ ∃ us, Records pay us ∧ r = .packet ⟨ver, be16 hi lo, len, pay, rx, us⟩)

/-- What a frame with its six header bytes can give (R152 to R158), by what follows them: nothing, less than LEN
declares, or the payload and a checksum byte. -/
theorem frameResult_header_cases {cfg : Config} {m0 m1 ver hi lo len : Byte} {rest : List Byte} {r : PacketResult}
    (h : FrameResult cfg (m0 :: m1 :: ver :: hi :: lo :: len :: rest) r) :
    (rest = [] ∧ r = .err (.frameTooShort (m0 :: m1 :: ver :: hi :: lo :: len :: rest))) ∨
    (1 ≤ rest.length ∧ rest.length < len.toNat + 1 ∧
      r = .err (.payloadLengthMismatch (m0 :: m1 :: ver :: hi :: lo :: len :: rest))) ∨
    ∃ pay rx tail, rest = pay ++ rx :: tail ∧ pay.length = len.toNat ∧
      CheckedResult (sumMod256 (covered cfg m0 m1 (ver :: hi :: lo :: len :: pay))) rx ver hi lo len pay
        (m0 :: m1 :: ver :: hi :: lo :: len :: rest) r := by
  cases h with
  | tooShort h7 =>
    have hrest : rest = [] := List.length_eq_zero_iff.1 (by simp only [List.length_cons] at h7; omega)
    exact .inl ⟨hrest, rfl⟩
  | lengthMismatch h1 hlt => exact .inr (.inl ⟨h1, hlt, rfl⟩)
  | sumMismatch hl hs => exact .inr (.inr ⟨_, _, _, rfl, hl, .inl ⟨hs, rfl⟩⟩)
  | accepted hc hl hs hu =>
    obtain rfl := BitVec.eq_of_toNat_eq (hc.trans (be16_toNat hi lo).symm)
    exact .inr (.inr ⟨_, _, _, rfl, hl, .inr ⟨hs, _, hu, rfl⟩⟩)

/-- LEN fixes the payload and the checksum byte of a frame that holds them, so only the checksum decides. -/
theorem checkedResult_of_frameResult {cfg : Config} {m0 m1 ver hi lo len rx : Byte} {pay tail : List Byte}
    {r : PacketResult} (hl : pay.length = len.toNat)
    (h : FrameResult cfg (m0 :: m1 :: ver :: hi :: lo :: len :: (pay ++ rx :: tail)) r) :
    CheckedResult (sumMod256 (covered cfg m0 m1 (ver :: hi :: lo :: len :: pay))) rx ver hi lo len pay
      (m0 :: m1 :: ver :: hi :: lo :: len :: (pay ++ rx :: tail)) r := by
  obtain ⟨hnil, -⟩ | ⟨-, hlt, -⟩ | ⟨pay', rx', tail', happ, hl', hr⟩ := frameResult_header_cases h
  · simp at hnil
  · simp only [List.length_append, List.length_cons] at hlt; omega
  · obtain ⟨rfl, htail⟩ := List.append_inj happ (by omega)
    obtain ⟨rfl, rfl⟩ := List.cons.inj htail
    exact hr

theorem frameResult_unique {cfg : Config} {f : List Byte} {r r' : PacketResult} (h : FrameResult cfg f r)
    (h' : FrameResult cfg f r') : r = r' := by
  cases h with
  | tooShort h7 => cases h' with
    | tooShort => rfl
    | lengthMismatch | sumMismatch | accepted =>
      simp only [List.length_cons, List.length_append] at h7; omega
  | lengthMismatch h1 hlt =>
    obtain ⟨rfl, -⟩ | ⟨-, -, rfl⟩ | ⟨pay, rx, tail, rfl, hl, -⟩ := frameResult_header_cases h'
    · simp at h1
    · rfl
    · simp only [List.length_append, List.length_cons] at hlt; omega
  | sumMismatch hl hs =>
    obtain ⟨-, rfl⟩ | ⟨hs', -⟩ := checkedResult_of_frameResult hl h'
    · rfl
    · exact absurd hs' hs
  | accepted hc hl hs hu =>
    obtain ⟨hs', -⟩ | ⟨-, us, hu', rfl⟩ := checkedResult_of_frameResult hl h'
    · exact absurd hs hs'
    · rw [records_unique hu hu', BitVec.eq_of_toNat_eq (hc.trans (be16_toNat _ _).symm)]

/-! FRAME as an instruction. -/

/-- FRAME completes in every state with the result of its frame. -/
theorem exec_frame_spec (f : List Byte) (s : State) : ∃ r, FrameResult s.cfg f r ∧
    exec (.frame f) s = .next { s.release with ret := .result r } := by
  obtain ⟨r, du, hrun, hres⟩ := decodePacket_spec f s
  exact ⟨r, hres, by simp only [exec, execFrame, hrun, ok_bind, returning_ok]; rfl⟩

/-- The result FRAME answers is exactly the one of its contract. -/
theorem exec_frame_iff {f : List Byte} {r : PacketResult} {s : State} :
    exec (.frame f) s = .next { s.release with ret := .result r } ↔ FrameResult s.cfg f r := by
  obtain ⟨r', hres, hrun⟩ := exec_frame_spec f s
  constructor
  · intro h
    obtain rfl : r = r' := Ret.result.inj (congrArg State.ret (Host.Outcome.next.inj (h.symm.trans hrun)))
    exact hres
  · intro h
    rw [frameResult_unique h hres, hrun]

/-- A frame with the right checksum gives the Packet whose units are those DU.PARSE answers in the same state. -/
theorem exec_frame_of_sum_eq {m0 m1 ver hi lo len rx : Byte} {cmd : Half} {pay : List Byte} (tail : List Byte)
    {s : State} (hc : cmd.toNat = hi.toNat * 256 + lo.toNat) (hl : pay.length = len.toNat)
    (hs : sumMod256 (covered s.cfg m0 m1 (ver :: hi :: lo :: len :: pay)) = rx) :
    ∃ us, exec (.duParse pay) s = .next { s.release with ret := .units us } ∧
      exec (.frame (m0 :: m1 :: ver :: hi :: lo :: len :: (pay ++ rx :: tail))) s = .next { s.release with
        ret := .result (.packet ⟨ver, cmd, len, pay, rx, us⟩) } := by
  obtain ⟨us, hrec, hrun⟩ := exec_duParse_spec pay s
  exact ⟨us, hrun, exec_frame_iff.2 (.accepted hc hl hs hrec)⟩

/-! The fields of a frame that was built (30_encoding.md R80, R83, R86). -/

theorem hiByte_loByte_toNat (v : Half) : v.toNat = (hiByte v).toNat * 256 + (loByte v).toNat := by
  have := v.isLt
  simp only [hiByte, loByte, BitVec.toNat_ofNat]; omega

/-- What CKSUM_START leaves of a built frame is what its checksum covers. -/
theorem frameHead_drop_cksumOffset (cfg : Config) (ver : Byte) (cmd : Half) (payload : List Byte) :
    (frameHead ver cmd payload).drop (cksumOffset cfg.cksumStart)
      = covered cfg marker0 marker1
          (ver :: hiByte cmd :: loByte cmd :: BitVec.ofNat 8 payload.length :: payload) := by
  unfold covered
  cases cfg.cksumStart <;> rfl

/-! The statements. -/

/-- Settles O28: `decode_packet` meets its contract, `exec_frame_spec`. -/
theorem frameMeetsItsContract : Obligations.FrameMeetsItsContract := exec_frame_spec

/-- Settles O30: the contract's case of a frame below MIN_FRAME. -/
theorem shortFrameIsTooShort : Obligations.ShortFrameIsTooShort := fun _ _ hshort =>
  exec_frame_iff.2 (.tooShort hshort)

/-- Settles O32: the contract's case of a checksum byte that is not the sum. -/
theorem wrongChecksumMismatches : Obligations.WrongChecksumMismatches := by
  intro m0 m1 ver hi lo len rx pay tail s hl hs
  exact exec_frame_iff.2 (.sumMismatch hl hs)

/-- Settles O33: by `exec_frame_of_sum_eq`, with COMMAND read as `be16`. -/
theorem goodFrameGivesItsPacket : Obligations.GoodFrameGivesItsPacket := by
  intro m0 m1 ver hi lo len rx pay tail s hl hs
  exact exec_frame_of_sum_eq tail (be16_toNat hi lo) hl hs

/-- Settles O36: the frame built has the bytes of the command at COMMAND, the length of the payload at LEN, and the
checksum of what is covered, with nothing after it. -/
theorem frameRoundTrip : Obligations.FrameRoundTrip := by
  intro ver cmd payload s hle ck hck
  have hlen : payload.length = (BitVec.ofNat 8 payload.length).toNat := by
    rw [BitVec.toNat_ofNat]; omega
  rw [frameHead_drop_cksumOffset] at hck
  exact exec_frame_of_sum_eq [] (hiByte_loByte_toNat cmd) hlen hck.symm

end Sys2Proof.Machine
end

section
/-! PROOFS. The statements of 43_frame_extractor.md: FIND_MARKER answers the least index at which a marker begins
(R171), and OP.PUSH appends its chunk where it fits BUF_CAP (R173). First what byte sequences a search tells apart
and what FIND_MARKER makes of its answer; then OP.PUSH past its first two guards; then the statements. -/

namespace Sys2Proof.Machine

open Sys2Proof.Contract

/-! FIND_MARKER. -/

/-- Among the indices at which a marker begins, if there are any, one is least. -/
theorem firstMarker_or_noMarker (b : List Byte) : (∃ i, FirstMarker b i) ∨ NoMarker b := by
  by_cases h : ∃ i, MarkerAt b i
  · exact .inl ⟨Nat.find h, Nat.find_spec h, fun _ => Nat.find_min h⟩
  · exact .inr (not_exists.1 h)

theorem firstMarker_iff_eq {b : List Byte} {i j : Nat} (hi : FirstMarker b i) : FirstMarker b j ↔ i = j :=
  ⟨firstMarker_unique hi, fun h => h ▸ hi⟩

/-- FIND_MARKER returns what the search answers and gives up the working registers. -/
theorem exec_findMarker_of_search {b : List Byte} {r : Option Nat} {s : State}
    (h : search b s = .ok (r, s.withMd none)) :
    exec (.findMarker b) s = .next { s.release with ret := .index r } := by
  simp only [exec, execFindMarker, h, ok_bind, returning_ok, State.release_withMd]
  rfl

/-! OP.PUSH. -/

/-- Outside a drain and with a chunk of at most CHUNK_MAX bytes, only BUF_CAP decides. -/
theorem exec_opPush_of_chunkMax {s : State} {chunk : List Byte} (hidle : s.fe = {})
    (hmax : ∀ m, s.cfg.chunkMax = some m → chunk.length ≤ m) :
    exec (.opPush chunk) s =
      if within (s.buf.length + chunk.length) s.cfg.bufCap then .next (s.withBuf (s.buf ++ chunk))
      else .refused .bufCapExceeded := by
  have hdrain : ¬ drainInProgress s = true := fun h => (drainInProgress_iff s).1 h hidle
  have hchunk : within chunk.length s.cfg.chunkMax = true := (within_iff _ _).2 hmax
  cases hcap : within (s.buf.length + chunk.length) s.cfg.bufCap <;> simp [exec, execOpPush, hdrain, hchunk, hcap]

/-! The statements. -/

/-- Settles O57: by whether the bytes hold a marker, with the search's answer in each case. -/
theorem findMarkerGivesTheFirst : Obligations.FindMarkerGivesTheFirst := by
  intro b s
  obtain ⟨i, hfirst⟩ | hno := firstMarker_or_noMarker b
  · have hrun := exec_findMarker_of_search (search_first hfirst s)
    refine ⟨some i, hrun, fun j => ?_, iff_of_false nofun fun hno => hno i hfirst.1⟩
    rw [firstMarker_iff_eq hfirst, Option.some.injEq]
  · have hrun := exec_findMarker_of_search (search_noMarker hno s)
    exact ⟨none, hrun, fun j => iff_of_false nofun fun hfirst => hno j hfirst.1, iff_of_true rfl hno⟩

/-- Settles O4: the two sides of BUF_CAP; appending an empty chunk writes BUF with what it held. -/
theorem pushAppendsItsChunk : Obligations.PushAppendsItsChunk := by
  intro s chunk hidle hmax
  rw [exec_opPush_of_chunkMax hidle hmax]
  refine ⟨fun hfits => ?_, fun cap hcap hover => if_neg fun hfits => ?_⟩
  · rw [if_pos ((within_iff _ _).2 hfits)]
    refine ⟨rfl, ?_⟩
    rintro rfl
    rw [List.append_nil]
    rfl
  · have hle := (within_iff _ _).1 hfits cap hcap
    omega

end Sys2Proof.Machine
end

section
/-! PROOFS. The statement of 60_exceptions.md: no algorithm produces HeaderUnparsable (R203). First the kinds of
error that each contract can give, one lemma per contract; then the statement, its kind being none of them. -/

namespace Sys2Proof.Machine

open Sys2Proof.Contract

/-! The kinds of error each contract can give (60_exceptions.md R201). -/

/-- The record loop lists no error but a cut header or a cut value (R122, R124). -/
theorem errorKind_of_mem_records {p : List Byte} {us : List UnitResult} {e : DecodeError} (h : Records p us)
    (he : .err e ∈ us) : errorKind e = .dataUnitHeaderTruncated ∨ errorKind e = .dataUnitValueTruncated := by
  induction h with
  | done => exact absurd he List.not_mem_nil
  | headerCut =>
    obtain rfl := UnitResult.err.inj (List.mem_singleton.1 he)
    exact .inl rfl
  | valueCut =>
    obtain rfl := UnitResult.err.inj (List.mem_singleton.1 he)
    exact .inr rfl
  | unit _ _ _ _ ih => exact ih ((List.mem_cons.1 he).resolve_left nofun)

/-- `decode_packet` answers no error but those of its three checks (R152, R154, R157). -/
theorem errorKind_of_frameResult {cfg : Config} {f : List Byte} {e : DecodeError} (h : FrameResult cfg f (.err e)) :
    errorKind e = .frameTooShort ∨ errorKind e = .payloadLengthMismatch ∨ errorKind e = .checksumMismatch := by
  cases h with
  | tooShort => exact .inl rfl
  | lengthMismatch => exact .inr (.inl rfl)
  | sumMismatch => exact .inr (.inr rfl)

/-- Of the events of one DRAIN_STEP only the candidate's result can be an error (R176, R181). -/
theorem eq_err_of_mem_stepEvents {orphan : List Byte} {r : PacketResult} {e : DecodeError}
    (he : .pktError e ∈ orphanEvents orphan ++ [resultEvent r]) : r = .err e := by
  obtain horphan | hresult := List.mem_append.1 he
  · unfold orphanEvents at horphan
    split at horphan <;> simp at horphan
  · cases r with
    | packet => exact absurd (List.mem_singleton.1 hresult) nofun
    | err => exact congrArg PacketResult.err (Event.pktError.inj (List.mem_singleton.1 hresult)).symm

/-- Every error a drain emits is one that `decode_packet` answers for some candidate frame (R181). -/
theorem exists_frameResult_of_mem_drained {cfg : Config} {b b' : List Byte} {evs : List Event} {e : DecodeError}
    (h : Drained cfg b evs b') (he : .pktError e ∈ evs) : ∃ f, FrameResult cfg f (.err e) := by
  induction h with
  | idle => exact absurd he List.not_mem_nil
  | eager _ _ hr => exact ⟨_, eq_err_of_mem_stepEvents he ▸ hr⟩
  | bounded _ _ hr _ ih =>
    obtain hstep | hlater := List.mem_append.1 he
    · exact ⟨_, eq_err_of_mem_stepEvents hstep ▸ hr⟩
    · exact ih hlater

theorem not_frameResult_headerUnparsable {cfg : Config} {f raw : List Byte} :
    ¬ FrameResult cfg f (.err (.headerUnparsable raw)) := fun h => by
  simpa only [errorKind, reduceCtorEq, or_self] using errorKind_of_frameResult h

/-! The statement. -/

/-- Settles O38: no contract gives an error of this kind, and a drain only adds its own events to EVQ. -/
theorem headerUnparsableIsNeverProduced : Obligations.HeaderUnparsableIsNeverProduced := by
  refine ⟨rfl, fun f raw s t hrun hret => ?frame, fun p raw us s t hrun hret hmem => ?parse,
    fun raw s t hrun hmem => ?drain⟩
  case frame =>
    obtain ⟨r, hres, hspec⟩ := exec_frame_spec f s
    obtain rfl := Host.Outcome.next.inj (hrun.symm.trans hspec)
    obtain rfl := Ret.result.inj hret
    exact not_frameResult_headerUnparsable hres
  case parse =>
    obtain ⟨us', hrec, hspec⟩ := exec_duParse_spec p s
    obtain rfl := Host.Outcome.next.inj (hrun.symm.trans hspec)
    obtain rfl := Ret.units.inj hret
    simpa only [errorKind, reduceCtorEq, or_self] using errorKind_of_mem_records hrec hmem
  case drain =>
    obtain ⟨evs, b', hdrained, rfl⟩ := exec_opDrain_next hrun
    obtain hbefore | hemitted := List.mem_append.1 hmem
    · exact hbefore
    · obtain ⟨f, hres⟩ := exists_frameResult_of_mem_drained hdrained hemitted
      exact absurd hres not_frameResult_headerUnparsable

end Sys2Proof.Machine
end

section
/-! PROOFS. The statements of 30_encoding.md: the TYPE map (R90), data units one after another (R88, R92), the round
trip through the encoder, and the words of the opcode table (R97). First what is true of every TYPE byte, then the
two ways between a data unit and its bytes; then the statements. -/

namespace Sys2Proof.Machine

open Sys2Proof.Contract

/-! The TYPE map. -/

theorem unitInstr_of_six_le {tag : Byte} (id : Byte) (vlen : Half) (val : List Byte) (h : 6 ≤ tag.toNat) :
    unitInstr id tag vlen val = .duUnknown id tag vlen val := by
  have hne : ∀ t : Byte, t.toNat < 6 → tag ≠ t := by rintro t ht rfl; omega
  simp [unitInstr, hne]

/-- A TYPE byte is one of the six with a name, or 6 to 255. -/
theorem tag_cases (tag : Byte) :
    6 ≤ tag.toNat ∨ tag = 0 ∨ tag = 1 ∨ tag = 2 ∨ tag = 3 ∨ tag = 4 ∨ tag = 5 := by
  bv_omega

section
variable (id tag : Byte) (vlen : Half) (val : List Byte)

/-- The encoder writes back the TYPE byte that selected the instruction. -/
theorem encode_unitInstr : encode (unitInstr id tag vlen val) = .unit (unitBytes id tag vlen val) := by
  obtain h6 | rfl | rfl | rfl | rfl | rfl | rfl := tag_cases tag
  · rw [unitInstr_of_six_le id vlen val h6]; rfl
  all_goals rfl

/-- Of what the TYPE map selects, only the length of the value is left to check. -/
theorem wellFormed_unitInstr : wellFormed (unitInstr id tag vlen val) = valueFits vlen val := by
  obtain h6 | rfl | rfl | rfl | rfl | rfl | rfl := tag_cases tag
  · simp [unitInstr_of_six_le id vlen val h6, wellFormed, h6]
  all_goals rfl

/-- A data unit handed over on its own answers the one DataUnit of its header and reading, whatever TYPE is. -/
theorem exec_unitInstr (s : State) : exec (unitInstr id tag vlen val) s
    = .next (s.release.withRet (.units [.unit ⟨id, tag, vlen, interp tag val, val⟩])) := by
  obtain h6 | rfl | rfl | rfl | rfl | rfl | rfl := tag_cases tag
  · rw [unitInstr_of_six_le id vlen val h6, interp_of_six_le val h6]; rfl
  all_goals rfl

end

theorem valueFits_iff (vlen : Half) (val : List Byte) : valueFits vlen val = true ↔ val.length = vlen.toNat :=
  beq_iff_eq

/-! The bytes of a data unit. -/

@[simp] theorem be16_hiByte_loByte (v : Half) : be16 (hiByte v) (loByte v) = v :=
  BitVec.eq_of_toNat_eq ((be16_toNat _ _).trans (hiByte_loByte_toNat v).symm)

@[simp] theorem hiByte_be16 (hi lo : Byte) : hiByte (be16 hi lo) = hi := by
  have hlo := lo.isLt
  apply BitVec.eq_of_toNat_eq
  rw [hiByte, be16_toNat, BitVec.toNat_ofNat]
  omega

@[simp] theorem loByte_be16 (hi lo : Byte) : loByte (be16 hi lo) = lo := by
  apply BitVec.eq_of_toNat_eq
  rw [loByte, be16_toNat, BitVec.toNat_ofNat]
  omega

/-- The decoder reads a data unit off the bytes that begin with it and leaves the others (R92). -/
theorem decodeUnit_unitBytes_append (id tag : Byte) {vlen : Half} {val : List Byte} (rest : List Byte)
    (hl : val.length = vlen.toNat) :
    decodeUnit (unitBytes id tag vlen val ++ rest) = .ok (unitInstr id tag vlen val, rest) := by
  simp [decodeUnit, unitBytes, ← hl]

/-- Whatever the decoder reads was a data unit whose value has its declared length. -/
theorem exists_unitBytes_of_decodeUnit {b rest : List Byte} {i : Instr} (h : decodeUnit b = .ok (i, rest)) :
    ∃ id tag vlen val, val.length = vlen.toNat ∧ b = unitBytes id tag vlen val ++ rest ∧
      i = unitInstr id tag vlen val := by
  unfold decodeUnit at h
  split at h
  next id tag hi lo tail =>
    split at h
    · cases h
    · obtain ⟨rfl, rfl⟩ := Prod.mk.inj (Except.ok.inj h)
      refine ⟨id, tag, be16 hi lo, tail.take (be16 hi lo).toNat, ?_, ?_, rfl⟩
      · rw [List.length_take]; omega
      · simp [unitBytes]
  next => cases h

/-- The request that spells a data unit asks for the instruction its TYPE selects. -/
theorem decode_unitBytes (id tag : Byte) {vlen : Half} {val : List Byte} (hfits : valueFits vlen val = true) :
    decode (.unit (unitBytes id tag vlen val)) = .ok (unitInstr id tag vlen val) := by
  have hunit := decodeUnit_unitBytes_append id tag [] ((valueFits_iff vlen val).1 hfits)
  rw [List.append_nil] at hunit
  simp only [decode, hunit]

/-! The statements. -/

/-- Settles O24: a data unit by `decode_unitBytes`, its TYPE byte then selecting the same row; every other request
carries its operand as it is. -/
theorem decodeOfEncode : Obligations.DecodeOfEncode := by
  intro i hwf
  cases i with
  | duRaw id vlen val => exact decode_unitBytes id 0 hwf
  | duBool id vlen val => exact decode_unitBytes id 1 hwf
  | duInt32 id vlen val => exact decode_unitBytes id 2 hwf
  | duString id vlen val => exact decode_unitBytes id 3 hwf
  | duEnum8 id vlen val => exact decode_unitBytes id 4 hwf
  | duBitmap32 id vlen val => exact decode_unitBytes id 5 hwf
  | duUnknown id tag vlen val =>
    obtain ⟨h6, hfits⟩ := (Bool.and_eq_true _ _).mp hwf
    rw [← unitInstr_of_six_le id vlen val (of_decide_eq_true h6), encode_unitInstr]
    exact decode_unitBytes id tag hfits
  | frame | duParse | checksum | findMarker | opReset | opPush | opDrain => rfl

/-- Settles O25: the two ways between a data unit and its bytes. -/
theorem dataUnitsDecodeInSequence : Obligations.DataUnitsDecodeInSequence := by
  refine ⟨fun id tag vlen val rest hl => decodeUnit_unitBytes_append id tag rest hl, fun b rest i h => ?_⟩
  obtain ⟨id, tag, vlen, val, hl, rfl, rfl⟩ := exists_unitBytes_of_decodeUnit h
  refine ⟨?_, unitBytes id tag vlen val, encode_unitInstr id tag vlen val, rfl⟩
  rw [wellFormed_unitInstr, valueFits_iff, hl]

/-- Settles O26: each of the six tests of the map, and none of them from 6 on. -/
theorem typeByteSelectsTheCase : Obligations.TypeByteSelectsTheCase := by
  intro id tag vlen val
  refine ⟨?_, ?_, ?_, ?_, ?_, ?_, unitInstr_of_six_le id vlen val⟩
  all_goals rintro rfl; rfl

/-- Settles O27: each word is decoded to its request and this to its instruction. -/
theorem tableWordsDecode : Obligations.TableWordsDecode :=
  ⟨rfl, rfl, rfl, rfl, rfl, rfl, rfl, rfl⟩

end Sys2Proof.Machine
end

section
/-! PROOFS. The statements of 40_checksum.md left: the 8-bit accumulator (R112) and what a checksum detects (R114).
First that a checksum is the sum of the bytes in 8-bit arithmetic, so that the library's lemmas about sums of lists
say what a changed byte does to it; then the statements. -/

namespace Sys2Proof.Machine

open Sys2Proof.Contract

/-! Checksums as 8-bit sums. -/

theorem checksumOf_eq_sum (b : List Byte) : checksumOf b = b.sum := by
  have hsum : ∀ l : List Byte, l.sum.toNat = (l.map BitVec.toNat).sum % 256 := by
    intro l
    induction l with
    | nil => rfl
    | cons x l ih => simp [ih]
  apply BitVec.eq_of_toNat_eq
  rw [checksumOf_toNat, hsum]

theorem sumMod256_eq_sum (b : List Byte) : sumMod256 b = b.sum := (checksumOf_eq b).symm.trans (checksumOf_eq_sum b)

/-- Writing one byte moves the sum by the difference. -/
theorem sum_set_of_getElem? {b : List Byte} {k : Nat} {y : Byte} (x : Byte) (hy : b[k]? = some y) :
    (b.set k x).sum = b.sum + (x - y) := by
  obtain ⟨hk, rfl⟩ := List.getElem?_eq_some_iff.1 hy
  rw [List.sum_set', dif_pos hk, neg_add_eq_sub]

/-! The statements. -/

/-- Settles O55: the accumulator adds up the 8-bit sum, and sums of lists put together add. -/
theorem eightBitAccumulatorSuffices : Obligations.EightBitAccumulatorSuffices := by
  intro a b s
  rw [exec_checksum, exec_checksum, checksumOf_eq_sum, checksumOf_eq_sum, List.sum_append, List.sum_eq_foldl,
    List.sum_eq_foldl]
  exact ⟨rfl, rfl⟩

/-- Settles O56: the sums of the marker, of one difference that is not 0, and of two that cancel. -/
theorem checksumDetectsOneByteNotTwo : Obligations.ChecksumDetectsOneByteNotTwo := by
  simp only [Obligations.ChecksumDetectsOneByteNotTwo, checksumOf_eq_sum]
  refine ⟨fun b => ?marker, fun b k x y hy hne heq => ?one, fun b j k x y x' y' hjk hx hy hsum => ?two⟩
  case marker => rw [List.sum_append, add_comm]; rfl
  case one =>
    rw [sum_set_of_getElem? x hy, add_eq_left, sub_eq_zero] at heq
    exact hne heq
  case two =>
    have hcancel : x' + y' = x + y := by bv_omega
    have hy' : (b.set j x')[k]? = some y := by rw [List.getElem?_set_ne hjk, hy]
    calc ((b.set j x').set k y').sum
        = b.sum + (x' - x) + (y' - y) := by rw [sum_set_of_getElem? y' hy', sum_set_of_getElem? x' hx]
      _ = b.sum + ((x' + y') - (x + y)) := by abel
      _ = b.sum := by rw [hcancel, sub_self, add_zero]

end Sys2Proof.Machine
end

section
/-! PROOFS. The statements of 41_data_unit_decoder.md left: the readings of TYPE 2 to 6 (R129 to R133, R138), that the
record contract has one answer, records after records (R137), the tiling of the payload (R135, R139), and a lone data
unit as a payload of one record (R134). First the bits of a big-endian word and the text the filter keeps, then how
much of the payload the records take; then the statements. -/

namespace Sys2Proof.Machine

open Sys2Proof.Contract

/-! The readings of four bytes. -/

/-- The word is its four bytes laid end to end, so the bit numbering of R132 is that of an append. -/
theorem be32u_eq_append (a b c d : Byte) : be32u a b c d = a ++ b ++ c ++ d := by
  apply BitVec.eq_of_toNat_eq
  have hb := b.isLt
  have hc := c.isLt
  have hd := d.isLt
  rw [be32u_toNat]
  simp only [BitVec.toNat_append]
  rw [← Nat.shiftLeft_add_eq_or_of_lt hb, ← Nat.shiftLeft_add_eq_or_of_lt hc, ← Nat.shiftLeft_add_eq_or_of_lt hd]
  simp only [Nat.shiftLeft_eq]
  omega

/-- Bit `k` is in the byte that `k div 8` counts from the last one on. -/
theorem getLsbD_be32u {a b c d x : Byte} {k : Nat} (hx : [a, b, c, d][3 - k / 8]? = some x) (hk : k < 32) :
    (be32u a b c d).getLsbD k = x.getLsbD (k % 8) := by
  have hbit : k % 8 < 8 := Nat.mod_lt k (by decide)
  have hbyte : k / 8 < 4 := by omega
  have hsplit : k = k % 8 + 8 * (k / 8) := (Nat.mod_add_div k 8).symm
  rw [be32u_eq_append]
  simp only [BitVec.getLsbD_append]
  generalize k % 8 = bit at hbit hsplit ⊢
  generalize k / 8 = byte at hbyte hx hsplit
  subst hsplit
  interval_cases byte <;> obtain rfl := Option.some.inj hx <;> grind

/-! The text that the filter keeps (R138). -/

theorem utf8Text_of_kept {b kept : List Byte} (h : Utf8Kept b kept) : Utf8Text kept := by
  induction h with
  | done => exact .nil
  | keep hq _ ih => exact .cons hq ih
  | drop _ _ ih => exact ih

theorem sublist_of_utf8Kept {b kept : List Byte} (h : Utf8Kept b kept) : kept.Sublist b := by
  induction h with
  | done => exact List.Sublist.refl _
  | keep _ _ ih => exact ih.append_left _
  | drop _ _ ih => exact ih.cons _

theorem utf8Kept_self {b : List Byte} (h : Utf8Text b) : Utf8Kept b b := by
  induction h with
  | nil => exact .done
  | cons hq _ ih => exact .keep hq ih

/-! How much of the payload the records take. -/

/-- The tiling of R139, for the units `ds` and the errors `es` of a payload. -/
structure Tiling (p : List Byte) (ds : List DataUnit) (es : List DecodeError) : Prop where
  /-- The error is terminal (R136). -/
  errors_le_one : es.length ≤ 1
  /-- R29. -/
  raw_length : ∀ d ∈ ds, d.raw.length = d.vlen.toNat
  /-- R135: each unit takes its four header bytes. -/
  units_le : ds.length ≤ p.length / 4
  /-- Without an error nothing is left over. -/
  sum_eq : es = [] → (ds.map (fun d => 4 + d.vlen.toNat)).sum = p.length

theorem tiling_error (p : List Byte) (e : DecodeError) : Tiling p [] [e] where
  errors_le_one := le_rfl
  raw_length := nofun
  units_le := Nat.zero_le _
  sum_eq := nofun

theorem tiling_cons {id tag hi lo : Byte} {vlen : Half} {val rest : List Byte} {value : Value}
    {ds : List DataUnit} {es : List DecodeError} (hl : val.length = vlen.toNat) (h : Tiling rest ds es) :
    Tiling (id :: tag :: hi :: lo :: (val ++ rest)) (⟨id, tag, vlen, value, val⟩ :: ds) es where
  errors_le_one := h.errors_le_one
  raw_length := List.forall_mem_cons.2 ⟨hl, h.raw_length⟩
  units_le := by
    have hle := h.units_le
    simp only [List.length_cons, List.length_append]
    omega
  sum_eq := fun hes => by
    have hsum := h.sum_eq hes
    simp only [List.map_cons, List.sum_cons, List.length_cons, List.length_append]
    omega

theorem exists_tiling_of_records {p : List Byte} {us : List UnitResult} (h : Records p us) :
    ∃ ds es, us = ds.map .unit ++ es.map .err ∧ Tiling p ds es := by
  induction h with
  | done => exact ⟨[], [], rfl, Nat.zero_le 1, nofun, Nat.zero_le _, fun _ => rfl⟩
  | headerCut | valueCut => exact ⟨[], [_], rfl, tiling_error _ _⟩
  | unit _ hl _ _ ih =>
    obtain ⟨ds, es, rfl, htiling⟩ := ih
    exact ⟨_ :: ds, es, rfl, tiling_cons hl htiling⟩

/-- A unit with its four header bytes stands in the payload, whatever follows it. -/
theorem vlen_add_four_le_of_mem_records {p : List Byte} {us : List UnitResult} {d : DataUnit} (h : Records p us)
    (hd : .unit d ∈ us) : d.vlen.toNat + 4 ≤ p.length := by
  induction h with
  | done => exact absurd hd List.not_mem_nil
  | headerCut | valueCut => exact absurd (List.mem_singleton.1 hd) nofun
  | unit _ hl _ _ ih =>
    simp only [List.length_cons, List.length_append]
    obtain hhead | hlater := List.mem_cons.1 hd
    · obtain rfl := UnitResult.unit.inj hhead
      dsimp only
      omega
    · have hle := ih hlater
      omega

/-- The bytes of one data unit are one record. -/
theorem records_unitBytes (id tag : Byte) {vlen : Half} {val : List Byte} (hl : val.length = vlen.toNat) :
    Records (unitBytes id tag vlen val) [.unit ⟨id, tag, vlen, interp tag val, val⟩] := by
  have hone := Records.unit (id := id) (hiByte_loByte_toNat vlen) hl (interp_spec tag val) .done
  rwa [List.append_nil] at hone

/-! The statements. -/

/-- Settles O42: the lone unit answers `utf8Filter`, which keeps what R138 says, and all of what is text already. -/
theorem stringValue : Obligations.StringValue := by
  intro id vlen val s
  have hkept := utf8Filter_spec val
  refine ⟨utf8Filter val, runUnit_eq id 3 vlen val (interpString val) s, hkept, utf8Text_of_kept hkept,
    sublist_of_utf8Kept hkept, fun htext => ?_⟩
  exact (utf8Kept_eq_utf8Filter (utf8Kept_self htext)).symm

/-- Settles O44: the word of four bytes bit by bit, and any other width. -/
theorem bitmap32Value : Obligations.Bitmap32Value := by
  refine ⟨fun id vlen a b c d s => ⟨be32u a b c d, ?_, be32u_toNat a b c d, ?_⟩, fun id vlen val s hwidth => ?_⟩
  · exact runUnit_eq id 5 vlen _ (interpBitmap32 [a, b, c, d]) s
  · exact fun k hk x hx => getLsbD_be32u hx hk
  · rw [← interpBitmap32_of_length_ne hwidth]
    exact runUnit_eq id 5 vlen val (interpBitmap32 val) s

/-- Settles O41: the number of four bytes read by its sign, and any other width. -/
theorem int32Value : Obligations.Int32Value := by
  refine ⟨fun id vlen a b c d s u hu => ?_, fun id vlen val s hwidth => ?_⟩
  · rw [hu, ← be32u_toNat]
    exact runUnit_eq id 2 vlen _ (interpInt32 [a, b, c, d]) s
  · rw [← interpInt32_of_length_ne hwidth]
    exact runUnit_eq id 2 vlen val (interpInt32 val) s

/-- Settles O43: one byte as it is, and any other width. -/
theorem enum8Value : Obligations.Enum8Value := by
  refine ⟨fun id vlen a s => runUnit_eq id 4 vlen [a] (interpEnum8 [a]) s, fun id vlen val s hwidth => ?_⟩
  rw [← interpEnum8_of_length_ne hwidth]
  exact runUnit_eq id 4 vlen val (interpEnum8 val) s

/-- Settles O45: the lone unit answers `interpUnknown`, whatever its value is. -/
theorem unknownValue : Obligations.UnknownValue := fun id tag vlen val s _ =>
  runUnit_eq id tag vlen val (interpUnknown val) s

/-- Settles O47: `records_unique`, by induction on the records. -/
theorem recordsContractIsAFunction : Obligations.RecordsContractIsAFunction := fun _ _ _ => records_unique

/-- Settles O50: `records_append`. -/
theorem laterUnitsAreUnaffected : Obligations.LaterUnitsAreUnaffected := fun _ _ _ _ _ h hcomplete h' =>
  exec_duParse_iff.2 (records_append (exec_duParse_iff.1 h) hcomplete (exec_duParse_iff.1 h'))

/-- Settles O51: `exists_tiling_of_records`, by induction on the records. -/
theorem unitsTileThePayload : Obligations.UnitsTileThePayload := by
  intro p us s h
  obtain ⟨ds, es, hus, htiling⟩ := exists_tiling_of_records (exec_duParse_iff.1 h)
  exact ⟨ds, es, hus, htiling.errors_le_one, htiling.raw_length, htiling.units_le, htiling.sum_eq⟩

/-- Settles O52: the header takes four of the 255 bytes. -/
theorem longValuesNeverComplete : Obligations.LongValuesNeverComplete := by
  intro p us d s hle h hd
  have hfits := vlen_add_four_le_of_mem_records (exec_duParse_iff.1 h) hd
  omega

/-- Settles O53: both answer the one unit that the bytes spell. -/
theorem loneUnitIsItsPayload : Obligations.LoneUnitIsItsPayload := by
  intro b i s h
  obtain ⟨id, tag, vlen, val, hl, rfl, rfl⟩ := exists_unitBytes_of_decodeUnit h
  rw [List.append_nil, exec_unitInstr, exec_duParse_iff.2 (records_unitBytes id tag hl)]
  rfl

end Sys2Proof.Machine
end

section
/-! PROOFS. The statements of 42_packet_decoder.md left: that the frame contract has one answer, frames shorter than
TOTAL (R154), bytes after TOTAL (R159), the two invariants of a Packet (R26), and the changed byte (R162). First what
FRAME says when it is known to answer a Packet, then how a changed field moves the sum; then the statements. -/

namespace Sys2Proof.Machine

open Sys2Proof.Contract

/-! Accepted frames. -/

/-- A completed FRAME is known by its answer alone. -/
theorem exec_frame_next {f : List Byte} {r : PacketResult} {s u : State} (h : exec (.frame f) s = .next u)
    (hret : u.ret = .result r) : FrameResult s.cfg f r ∧ u = { s.release with ret := .result r } := by
  obtain ⟨r', hres, hrun⟩ := exec_frame_spec f s
  obtain rfl := Host.Outcome.next.inj (h.symm.trans hrun)
  obtain rfl := Ret.result.inj hret
  exact ⟨hres, rfl⟩

/-- R159: LEN fixes where an accepted frame ends. -/
theorem frameResult_packet_append {cfg : Config} {f : List Byte} {p : Packet} (tail : List Byte)
    (h : FrameResult cfg f (.packet p)) : FrameResult cfg (f ++ tail) (.packet p) := by
  cases h with
  | @accepted m0 m1 _ _ _ _ _ _ _ tail' _ hc hl hs hu =>
    have hlonger := FrameResult.accepted (m0 := m0) (m1 := m1) (tail := tail' ++ tail) hc hl hs hu
    simpa only [List.cons_append, List.append_assoc] using hlonger

/-- What the checksum of a frame covers, by offsets (40_checksum.md R113). -/
theorem take_drop_eq_covered (cfg : Config) (m0 m1 ver hi lo len : Byte) (pay tail : List Byte) :
    ((m0 :: m1 :: ver :: hi :: lo :: len :: (pay ++ tail)).take (6 + pay.length)).drop (cksumOffset cfg.cksumStart)
      = covered cfg m0 m1 (ver :: hi :: lo :: len :: pay) := by
  rw [Nat.add_comm]
  unfold covered
  cases cfg.cksumStart <;> simp [cksumOffset]

/-! The changed byte (42_packet_decoder.md R162). -/

/-- The marker bytes add the same whatever the fields are. -/
theorem sumMod256_covered_inj {cfg : Config} {m0 m1 : Byte} {fields fields' : List Byte}
    (h : sumMod256 (covered cfg m0 m1 fields) = sumMod256 (covered cfg m0 m1 fields')) : fields.sum = fields'.sum := by
  rw [sumMod256_eq_sum, sumMod256_eq_sum] at h
  unfold covered at h
  cases hstart : cfg.cksumStart <;> simpa [hstart] using h

theorem sum_set_ne {b : List Byte} {k : Nat} {x : Byte} (hk : k < b.length) (hx : b[k]? ≠ some x) :
    (b.set k x).sum ≠ b.sum := by
  have hy : b[k]? = some b[k] := List.getElem?_eq_getElem hk
  rw [sum_set_of_getElem? x hy, Ne, add_eq_left, sub_eq_zero]
  rintro rfl
  exact hx hy

/-- Changing a field other than LEN leaves LEN and the length of the payload. -/
theorem exists_fields_set_eq {k : Nat} (ver hi lo len x : Byte) (pay : List Byte) (hk : k ≠ 3) :
    ∃ ver' hi' lo' pay', (ver :: hi :: lo :: len :: pay).set k x = ver' :: hi' :: lo' :: len :: pay' ∧
      pay'.length = pay.length := by
  match k, hk with
  | 0, _ => exact ⟨x, hi, lo, pay, rfl, rfl⟩
  | 1, _ => exact ⟨ver, x, lo, pay, rfl, rfl⟩
  | 2, _ => exact ⟨ver, hi, x, pay, rfl, rfl⟩
  | k + 4, _ => exact ⟨ver, hi, lo, pay.set k x, rfl, List.length_set⟩

/-- One byte of an accepted frame changed among VERSION, COMMAND and PAYLOAD (the sum moves) or CHECKSUM (the byte
received does): the two differ. `k` counts from VERSION on. -/
theorem exists_sumMismatch_of_set {cfg : Config} {m0 m1 ver hi lo len rx x : Byte} {pay : List Byte} {k : Nat}
    (tail : List Byte) (hl : pay.length = len.toNat)
    (hs : sumMod256 (covered cfg m0 m1 (ver :: hi :: lo :: len :: pay)) = rx) (hlen : k ≠ 3)
    (hle : k ≤ 4 + len.toNat) (hx : (ver :: hi :: lo :: len :: (pay ++ rx :: tail))[k]? ≠ some x) :
    ∃ ck rx', ck ≠ rx' ∧
      FrameResult cfg (m0 :: m1 :: (ver :: hi :: lo :: len :: (pay ++ rx :: tail)).set k x)
        (.err (.checksumMismatch ck rx' (m0 :: m1 :: (ver :: hi :: lo :: len :: (pay ++ rx :: tail)).set k x))) := by
  have happ : ver :: hi :: lo :: len :: (pay ++ rx :: tail) = (ver :: hi :: lo :: len :: pay) ++ rx :: tail := rfl
  have hlength : (ver :: hi :: lo :: len :: pay).length = 4 + len.toNat := by
    simp only [List.length_cons, hl]
    omega
  rw [happ] at hx ⊢
  obtain hlt | rfl := Nat.lt_or_eq_of_le hle
  · rw [← hlength] at hlt
    rw [List.getElem?_append_left hlt] at hx
    have hmoved := sum_set_ne hlt hx
    rw [List.set_append_left _ _ hlt]
    obtain ⟨ver', hi', lo', pay', hset, hl'⟩ := exists_fields_set_eq ver hi lo len x pay hlen
    rw [hset] at hmoved ⊢
    have hne : sumMod256 (covered cfg m0 m1 (ver' :: hi' :: lo' :: len :: pay')) ≠ rx := fun heq =>
      hmoved (sumMod256_covered_inj (heq.trans hs.symm))
    exact ⟨_, rx, hne, .sumMismatch (hl'.trans hl) hne⟩
  · rw [← hlength] at hx ⊢
    rw [List.getElem?_append_right le_rfl, Nat.sub_self] at hx
    rw [List.set_append_right _ _ le_rfl, Nat.sub_self]
    have hne : sumMod256 (covered cfg m0 m1 (ver :: hi :: lo :: len :: pay)) ≠ x := fun heq =>
      hx (congrArg some (hs.symm.trans heq))
    exact ⟨_, x, hne, .sumMismatch hl hne⟩

/-! The statements. -/

/-- Settles O29: `frameResult_unique`, by the cases of the contract. -/
theorem frameContractIsAFunction : Obligations.FrameContractIsAFunction := fun _ _ _ _ => frameResult_unique

/-- Settles O31: the contract's case of a frame below TOTAL. -/
theorem frameBelowTotalMismatches : Obligations.FrameBelowTotalMismatches := fun _ _ _ _ _ _ _ _ hpos hlt =>
  exec_frame_iff.2 (.lengthMismatch hpos hlt)

/-- Settles O34: the contract gives the longer frame the same Packet. -/
theorem trailingBytesAreIgnored : Obligations.TrailingBytesAreIgnored := by
  intro f tail s u p h hret
  obtain ⟨hres, rfl⟩ := exec_frame_next h hret
  exact exec_frame_iff.2 (frameResult_packet_append tail hres)

/-- Settles O35: the contract's case of an accepted frame says both. -/
theorem packetInvariants : Obligations.PacketInvariants := by
  intro f s u p h hret
  obtain ⟨hres, -⟩ := exec_frame_next h hret
  cases hres with
  | accepted hc hl hs hu => exact ⟨hl, by rw [← hl, take_drop_eq_covered, hs]⟩

/-- Settles O37: the changed frame meets the contract's case of a wrong checksum. -/
theorem singleByteCorruptionIsDetected : Obligations.SingleByteCorruptionIsDetected := by
  intro f s u p k x h hret h2 h5 hle hx
  obtain ⟨hres, -⟩ := exec_frame_next h hret
  obtain ⟨k, rfl⟩ := Nat.exists_eq_add_of_le' h2
  cases hres with
  | @accepted _ _ _ _ _ len _ _ _ tail _ hc hl hs hu =>
    have hle' : k + 2 ≤ 6 + len.toNat := hle
    obtain ⟨ck, rx, hne, hmismatch⟩ := exists_sumMismatch_of_set tail hl hs (by omega) (by omega) hx
    exact ⟨ck, rx, hne, exec_frame_iff.2 hmismatch⟩

end Sys2Proof.Machine
end

section
/-! PROOFS. The statements of 43_frame_extractor.md and 70_reset_and_hazards.md about draining: OP.DRAIN meets its
contract (R174 to R181), what it leaves (R182), how often it decodes (R183), adjacent markers (R188), orphan bytes
(R186), several pushes (R185), harmless cuts of the stream (R248) and the marker lost at a cut (R243). First where a
marker can begin in bytes put together, then the contract of a drain: its cases, its one answer, what it gives for
bytes put together, its counts. Then OP.DRAIN, OP.PUSH and FEED as instructions; then the statements. -/

namespace Sys2Proof.Machine

open Sys2Proof.Contract

/-! Markers in bytes put together. -/

theorem succ_lt_of_markerAt {b : List Byte} {i : Nat} (h : MarkerAt b i) : i + 1 < b.length :=
  (List.getElem?_eq_some_iff.1 h.2).1

theorem markerAt_append_left_iff {a : List Byte} (b : List Byte) {i : Nat} (hi : i + 1 < a.length) :
    MarkerAt (a ++ b) i ↔ MarkerAt a i := by
  unfold MarkerAt
  rw [List.getElem?_append_left hi, List.getElem?_append_left (Nat.lt_of_succ_lt hi)]

theorem markerAt_append_right_iff (a b : List Byte) (i : Nat) :
    MarkerAt (a ++ b) (a.length + i) ↔ MarkerAt b i := by
  unfold MarkerAt
  rw [Nat.add_assoc, List.getElem?_append_right (Nat.le_add_right _ _),
    List.getElem?_append_right (Nat.le_add_right _ _), Nat.add_sub_cancel_left, Nat.add_sub_cancel_left]

theorem noMarker_of_append_left {a b : List Byte} (h : NoMarker (a ++ b)) : NoMarker a := fun i hi =>
  h i ((markerAt_append_left_iff b (succ_lt_of_markerAt hi)).2 hi)

theorem noMarker_of_append_right {a b : List Byte} (h : NoMarker (a ++ b)) : NoMarker b := fun i hi =>
  h (a.length + i) ((markerAt_append_right_iff a b i).2 hi)

theorem markerAt_zero_iff {b : List Byte} : MarkerAt b 0 ↔ ∃ r, b = mark ++ r := by
  constructor
  · intro h
    match b, h with
    | x :: y :: r, ⟨hx, hy⟩ =>
      obtain rfl : x = 0x55 := Option.some.inj hx
      obtain rfl : y = 0xAA := Option.some.inj hy
      exact ⟨r, rfl⟩
  · rintro ⟨r, rfl⟩
    exact ⟨rfl, rfl⟩

theorem not_noMarker_mark_append (r : List Byte) : ¬ NoMarker (mark ++ r) := fun h =>
  h 0 (markerAt_zero_iff.2 ⟨r, rfl⟩)

/-- The first marker begins right after `a` when `a` holds none and a marker follows: the second byte of a marker is
not the first of another, so none begins in `a` and ends behind it. -/
theorem firstMarker_append_iff {a b : List Byte} :
    FirstMarker (a ++ b) a.length ↔ NoMarker a ∧ ∃ r, b = mark ++ r := by
  rw [FirstMarker, ← Nat.add_zero a.length, markerAt_append_right_iff, markerAt_zero_iff, Nat.add_zero]
  constructor
  · rintro ⟨hb, hno⟩
    refine ⟨fun i hi => ?_, hb⟩
    have hlt := succ_lt_of_markerAt hi
    exact hno i (by omega) ((markerAt_append_left_iff b hlt).2 hi)
  · rintro ⟨hno, r, rfl⟩
    refine ⟨⟨r, rfl⟩, fun j hj hmark => ?_⟩
    by_cases hlt : j + 1 < a.length
    · exact hno j ((markerAt_append_left_iff _ hlt).1 hmark)
    · obtain hlast : j + 1 = a.length := by omega
      have hsecond := hmark.2
      rw [hlast, List.getElem?_append_right le_rfl, Nat.sub_self] at hsecond
      exact absurd (Option.some.inj hsecond : (0x55 : Byte) = 0xAA) (by decide)

theorem firstMarker_of_noMarker {a : List Byte} (r : List Byte) (h : NoMarker a) :
    FirstMarker (a ++ mark ++ r) a.length := by
  rw [List.append_assoc]
  exact firstMarker_append_iff.2 ⟨h, r, rfl⟩

theorem noMarker_of_firstMarker {a r : List Byte} (h : FirstMarker (a ++ mark ++ r) a.length) : NoMarker a := by
  rw [List.append_assoc] at h
  exact (firstMarker_append_iff.1 h).1

/-! Counting markers (43_frame_extractor.md R183). -/

theorem markerCount_of_noMarker {b : List Byte} (h : NoMarker b) : markerCount b = 0 := by
  simp [markerCount, h _]

theorem markerCount_cons (x : Byte) (xs : List Byte) :
    markerCount (x :: xs) = (if MarkerAt (x :: xs) 0 then 1 else 0) + markerCount xs := by
  have hshift : ∀ i, MarkerAt (x :: xs) (i + 1) ↔ MarkerAt xs i := fun i => by
    simp only [MarkerAt, List.getElem?_cons_succ]
  rw [markerCount, List.length_cons, List.range_succ_eq_map, List.filter_cons, List.filter_map, markerCount]
  simp only [Function.comp_def, hshift, Nat.succ_eq_add_one, decide_eq_true_eq]
  split_ifs <;> simp [Nat.add_comm]

theorem markerCount_mark_append (r : List Byte) : markerCount (mark ++ r) = markerCount r + 1 := by
  simp [mark, markerCount_cons, MarkerAt, Nat.add_comm]

/-- Bytes in which no marker begins add nothing to the count. -/
theorem markerCount_append {a b : List Byte} (h : ∀ j < a.length, ¬ MarkerAt (a ++ b) j) :
    markerCount (a ++ b) = markerCount b := by
  induction a with
  | nil => rfl
  | cons x a ih =>
    have htail : ∀ j < a.length, ¬ MarkerAt (a ++ b) j := fun j hj hm =>
      h (j + 1) (Nat.succ_lt_succ hj) (by simpa [MarkerAt] using hm)
    have hhead : ¬ MarkerAt (x :: (a ++ b)) 0 := h 0 (Nat.succ_pos _)
    rw [List.cons_append, markerCount_cons, if_neg hhead, ih htail, Nat.zero_add]

/-! The contract of a drain. -/

theorem drained_of_noMarker {cfg : Config} {b b' : List Byte} {evs : List Event} (hno : NoMarker b)
    (h : Drained cfg b evs b') : evs = [] ∧ b' = b := by
  cases h with
  | idle => exact ⟨rfl, rfl⟩
  | eager hm => exact absurd hm.1 (hno _)
  | bounded hm => exact absurd hm.1 (hno _)

/-- What bytes up to and with their first marker can give: the last marker, or one with another after it. -/
theorem drained_marker_cases {cfg : Config} {orphan tail b' : List Byte} {evs : List Event}
    (hno : NoMarker orphan) (h : Drained cfg (orphan ++ mark ++ tail) evs b') :
    ∃ body r, FrameResult cfg (mark ++ body) r ∧
      ((NoMarker body ∧ tail = body ∧ evs = orphanEvents orphan ++ [resultEvent r] ∧ b' = []) ∨
      ∃ rest evs', FirstMarker (body ++ rest) body.length ∧ tail = body ++ rest ∧
        evs = orphanEvents orphan ++ [resultEvent r] ++ evs' ∧ Drained cfg rest evs' b') := by
  have hfirst := firstMarker_of_noMarker tail hno
  generalize hb : orphan ++ mark ++ tail = b at h hfirst
  cases h with
  | idle hnone => exact absurd hfirst.1 (hnone _)
  | eager hm hn hr =>
    obtain ⟨hhead, rfl⟩ := List.append_inj hb (by simp [firstMarker_unique hfirst hm])
    obtain rfl := List.append_cancel_right hhead
    exact ⟨_, _, hr, .inl ⟨hn, rfl, rfl, rfl⟩⟩
  | @bounded _ body _ _ _ _ hm hn hr hd =>
    rw [List.append_assoc _ body] at hb
    obtain ⟨hhead, rfl⟩ := List.append_inj hb (by simp [firstMarker_unique hfirst hm])
    obtain rfl := List.append_cancel_right hhead
    exact ⟨_, _, hr, .inr ⟨_, _, hn, rfl, rfl, hd⟩⟩

/-- The last marker, with what comes before it known to hold none. -/
theorem drained_eager {cfg : Config} {orphan body : List Byte} {r : PacketResult} (hno : NoMarker orphan)
    (hn : NoMarker body) (hr : FrameResult cfg (mark ++ body) r) :
    Drained cfg (orphan ++ mark ++ body) (orphanEvents orphan ++ [resultEvent r]) [] :=
  .eager (firstMarker_of_noMarker body hno) hn hr

/-- A marker with another after it, with what comes before it known to hold none. -/
theorem drained_bounded {cfg : Config} {orphan body rest b' : List Byte} {r : PacketResult} {evs : List Event}
    (hno : NoMarker orphan) (hn : FirstMarker (body ++ rest) body.length) (hr : FrameResult cfg (mark ++ body) r)
    (hd : Drained cfg rest evs b') :
    Drained cfg (orphan ++ mark ++ body ++ rest) (orphanEvents orphan ++ [resultEvent r] ++ evs) b' :=
  .bounded (by rw [List.append_assoc _ body]; exact firstMarker_of_noMarker _ hno) hn hr hd

theorem drained_unique {cfg : Config} {b b1 b2 : List Byte} {evs evs' : List Event} (h : Drained cfg b evs b1)
    (h' : Drained cfg b evs' b2) : evs = evs' ∧ b1 = b2 := by
  induction h generalizing evs' with
  | idle hno =>
    obtain ⟨rfl, rfl⟩ := drained_of_noMarker hno h'
    exact ⟨rfl, rfl⟩
  | eager hm hn hr =>
    obtain ⟨body, r, hr', ⟨-, rfl, rfl, rfl⟩ | ⟨rest, evs', hn', rfl, -, -⟩⟩ :=
      drained_marker_cases (noMarker_of_firstMarker hm) h'
    · rw [frameResult_unique hr hr']
      exact ⟨rfl, rfl⟩
    · exact absurd hn'.1 (hn _)
  | bounded hm hn hr _ ih =>
    rw [List.append_assoc] at hm h'
    obtain ⟨body, r, hr', ⟨hnone, rfl, -, -⟩ | ⟨rest, evs', hn', happ, rfl, hd'⟩⟩ :=
      drained_marker_cases (noMarker_of_firstMarker hm) h'
    · exact absurd hn.1 (hnone _)
    · rw [happ] at hn
      obtain ⟨rfl, rfl⟩ := List.append_inj happ (firstMarker_unique hn hn')
      obtain ⟨rfl, rfl⟩ := ih hd'
      rw [frameResult_unique hr hr']
      exact ⟨rfl, rfl⟩

/-- R182: without a marker BUF stays, with one it becomes empty. -/
theorem drained_remaining_eq_nil {cfg : Config} {b b' : List Byte} {evs : List Event} (h : Drained cfg b evs b')
    (hmark : ¬ NoMarker b) : b' = [] := by
  induction h with
  | idle hno => exact absurd hno hmark
  | eager => rfl
  | bounded _ hn _ _ ih =>
    obtain ⟨-, r, rfl⟩ := firstMarker_append_iff.1 hn
    exact ih (not_noMarker_mark_append r)

/-- R186: bytes before the first marker add one event and change nothing of the others. -/
theorem drained_orphan_append {cfg : Config} {orphan tail b' : List Byte} {evs : List Event}
    (hno : NoMarker orphan) (h : Drained cfg (mark ++ tail) evs b') :
    Drained cfg (orphan ++ mark ++ tail) (orphanEvents orphan ++ evs) b' := by
  obtain ⟨body, r, hr, ⟨hn, rfl, rfl, rfl⟩ | ⟨rest, evs', hn, rfl, rfl, hd⟩⟩ :=
    drained_marker_cases (orphan := []) (noMarker_short (Nat.zero_le 1)) h
  · exact drained_eager hno hn hr
  · have hall := drained_bounded hno hn hr hd
    rw [List.append_assoc _ body, List.append_assoc _ [_]] at hall
    exact hall

/-- R188: a marker with another right behind it is a frame of two bytes. -/
theorem drained_mark_mark {cfg : Config} {tail b' : List Byte} {evs : List Event}
    (h : Drained cfg (mark ++ tail) evs b') :
    Drained cfg (mark ++ mark ++ tail) ([.pktError (.frameTooShort mark)] ++ evs) b' := by
  have hnil : NoMarker ([] : List Byte) := noMarker_short (Nat.zero_le 1)
  rw [List.append_assoc]
  exact drained_bounded (orphan := []) (body := []) hnil (firstMarker_append_iff.2 ⟨hnil, tail, rfl⟩)
    (.tooShort (by decide)) h

/-- R248: bytes that hold a marker, followed by bytes that begin with one, drain as the two one after the other. -/
theorem drained_append {cfg : Config} {b b1 b2 tail : List Byte} {evs evs' : List Event}
    (h : Drained cfg b evs b1) (hmark : ¬ NoMarker b) (h' : Drained cfg (mark ++ tail) evs' b2) :
    Drained cfg (b ++ (mark ++ tail)) (evs ++ evs') b2 := by
  induction h with
  | idle hno => exact absurd hno hmark
  | eager hm hn hr =>
    exact drained_bounded (noMarker_of_firstMarker hm) (firstMarker_append_iff.2 ⟨hn, tail, rfl⟩) hr h'
  | bounded hm hn hr _ ih =>
    obtain ⟨hbody, r, rfl⟩ := firstMarker_append_iff.1 hn
    rw [List.append_assoc _ (mark ++ r), List.append_assoc _ _ evs']
    rw [List.append_assoc] at hm
    refine drained_bounded (noMarker_of_firstMarker hm) ?_ hr (ih (not_noMarker_mark_append r))
    rw [List.append_assoc]
    exact firstMarker_append_iff.2 ⟨hbody, _, rfl⟩

theorem filter_isResult_orphanEvents (orphan : List Byte) : (orphanEvents orphan).filter isResult = [] := by
  unfold orphanEvents
  split <;> rfl

theorem filter_isResult_stepEvents (orphan : List Byte) (r : PacketResult) :
    (orphanEvents orphan ++ [resultEvent r]).filter isResult = [resultEvent r] := by
  rw [List.filter_append, filter_isResult_orphanEvents]
  cases r <;> rfl

/-- R183: each marker is decoded once and takes two bytes of BUF. -/
theorem drained_result_count {cfg : Config} {b b' : List Byte} {evs : List Event} (h : Drained cfg b evs b') :
    (evs.filter isResult).length = markerCount b ∧ 2 * markerCount b ≤ b.length := by
  induction h with
  | idle hno => simp [markerCount_of_noMarker hno]
  | @eager orphan body _ hm hn =>
    have hcount : markerCount (orphan ++ mark ++ body) = 1 := by
      rw [List.append_assoc] at hm ⊢
      rw [markerCount_append hm.2, markerCount_mark_append, markerCount_of_noMarker hn]
    rw [filter_isResult_stepEvents, hcount]
    simp [mark]
    omega
  | @bounded orphan body rest _ _ _ hm hn _ _ ih =>
    obtain ⟨hevs, hle⟩ := ih
    have hcount : markerCount (orphan ++ mark ++ body ++ rest) = markerCount rest + 1 := by
      simp only [List.append_assoc] at hm ⊢
      rw [markerCount_append hm.2, markerCount_mark_append, markerCount_append hn.2]
    rw [List.filter_append, filter_isResult_stepEvents, hcount, List.length_append, hevs]
    simp [mark]
    omega

/-! OP.DRAIN as an instruction. -/

/-- What OP.DRAIN does is exactly what its contract says. -/
theorem exec_opDrain_iff {s : State} {evs : List Event} {b' : List Byte} :
    exec .opDrain s = .next { s.release with buf := b', evq := s.evq ++ evs } ↔ Drained s.cfg s.buf evs b' := by
  obtain ⟨evs', b2, hdrained, hrun⟩ := exec_opDrain_spec s
  constructor
  · intro h
    have hstate := Host.Outcome.next.inj (h.symm.trans hrun)
    obtain rfl : b' = b2 := congrArg State.buf hstate
    obtain rfl : evs = evs' := List.append_cancel_left (congrArg State.evq hstate)
    exact hdrained
  · intro h
    obtain ⟨rfl, rfl⟩ := drained_unique h hdrained
    exact hrun

/-- Where BUF gives some events before those of other bytes, OP.DRAIN does what it does from those bytes with the
events already in EVQ. -/
theorem exec_opDrain_of_drained {s : State} {b : List Byte} {before : List Event}
    (h : ∀ evs b', Drained s.cfg b evs b' → Drained s.cfg s.buf (before ++ evs) b') :
    exec .opDrain s = exec .opDrain { s with buf := b, evq := s.evq ++ before } := by
  obtain ⟨evs, b', hdrained, hrun⟩ := exec_opDrain_spec { s with buf := b, evq := s.evq ++ before }
  rw [hrun, exec_opDrain_iff.2 (h evs b' hdrained), ← List.append_assoc]
  rfl

/-- Without a marker DRAIN_STEP's precondition fails (R174): it gets no further than the test of M. -/
theorem drainStep_of_noMarker {s : State} (h : NoMarker s.buf) : drainStep s = .error .noMarker := by
  have hsearch : search s.buf (s.withFe {}) = .ok (none, (s.withFe {}).withMd none) := search_noMarker h _
  simp [drainStep, locate, hsearch, emitOrphan, markerIndex]

/-- R183: a DRAIN_STEP that completes takes at least the marker out of BUF. -/
theorem drainStep_length {s u : State} (h : drainStep s = .ok u) : u.buf.length + 2 ≤ s.buf.length := by
  obtain ⟨m, hm⟩ | hno := firstMarker_or_noMarker s.buf
  · have hlt := firstMarker_lt hm
    obtain ⟨n, hn⟩ | hlast := firstMarker_or_noMarker (s.buf.drop (m + 2))
    · obtain ⟨r, du, hstep, -⟩ := drainStep_bounded hm hn
      obtain rfl := Except.ok.inj (hstep.symm.trans h)
      simp only [List.length_drop]
      omega
    · obtain ⟨r, du, hstep, -⟩ := drainStep_eager hm hlast
      obtain rfl := Except.ok.inj (hstep.symm.trans h)
      simp only [List.length_nil]
      omega
  · rw [drainStep_of_noMarker hno] at h
    cases h

/-! OP.PUSH and FEED. -/

/-- No drain is in progress and no cap is finite: then no chunk is refused. -/
def IdleUnbounded (s : State) : Prop :=
  s.fe = {} ∧ s.cfg.bufCap = none ∧ s.cfg.chunkMax = none

theorem exec_opPush_of_idleUnbounded {s : State} (h : IdleUnbounded s) (chunk : List Byte) :
    exec (.opPush chunk) s = .next (s.withBuf (s.buf ++ chunk)) := by
  obtain ⟨hidle, hcap, hmax⟩ := h
  have hfits : within (s.buf.length + chunk.length) s.cfg.bufCap = true := by rw [hcap]; rfl
  rw [exec_opPush_of_chunkMax hidle (by simp [hmax]), if_pos hfits]

theorem performs_cons {i : Instr} {s u : State} (is : List Instr) (h : exec i s = .next u) :
    performs (i :: is) s = performs is u := by
  simp only [performs, h]

theorem performs_append {is : List Instr} {s u : State} (js : List Instr) (h : performs is s = .next u) :
    performs (is ++ js) s = performs js u := by
  induction is generalizing s with
  | nil => rw [Host.Outcome.next.inj h]; rfl
  | cons i is ih =>
    cases hi : exec i s with
    | next v =>
      rw [performs_cons is hi] at h
      rw [List.cons_append, performs_cons _ hi, ih h]
    | fault f => simp [performs, hi] at h
    | refused r => simp [performs, hi] at h

/-- FEED (R185): a push that is not refused and a drain. -/
theorem feed_of_drained {s : State} {chunk b' : List Byte} {evs : List Event} (h : IdleUnbounded s)
    (hd : Drained s.cfg (s.buf ++ chunk) evs b') : performs [.opPush chunk, .opDrain] s
      = .next { s.release with buf := b', evq := s.evq ++ evs } := by
  have hdrain := exec_opDrain_iff (s := s.withBuf (s.buf ++ chunk)).2 hd
  rw [performs_cons _ (exec_opPush_of_idleUnbounded h chunk), performs_cons _ hdrain]
  rfl

theorem exists_drained (cfg : Config) (b : List Byte) : ∃ evs b', Drained cfg b evs b' := by
  obtain ⟨evs, b', hd, -⟩ := exec_opDrain_spec { State.reset with cfg := cfg, buf := b }
  exact ⟨evs, b', hd⟩

/-! The statements. -/

/-- Settles O6: `exec_opDrain_spec`. -/
theorem drainMeetsItsContract : Obligations.DrainMeetsItsContract := exec_opDrain_spec

/-- Settles O7: `drained_unique`, by induction on the drain. -/
theorem drainContractIsAFunction : Obligations.DrainContractIsAFunction := fun _ _ _ _ _ _ => drained_unique

/-- Settles O8: by whether BUF holds a marker. -/
theorem bufAfterDrain : Obligations.BufAfterDrain := by
  intro s
  obtain ⟨evs, b', hdrained, hrun⟩ := exec_opDrain_spec s
  refine ⟨_, hrun, fun hno => ?_, drained_remaining_eq_nil hdrained, ?_⟩
  · obtain ⟨rfl, rfl⟩ := drained_of_noMarker hno hdrained
    exact ⟨rfl, List.append_nil _⟩
  · by_cases hno : NoMarker s.buf
    · obtain ⟨-, rfl⟩ := drained_of_noMarker hno hdrained
      exact hno
    · obtain rfl := drained_remaining_eq_nil hdrained hno
      exact noMarker_short (Nat.zero_le 1)

/-- Settles O9: the counts of the contract, and the length of what a DRAIN_STEP leaves. -/
theorem oneDecodeAttemptPerMarker : Obligations.OneDecodeAttemptPerMarker := by
  refine ⟨fun s => ?_, fun s u => drainStep_length⟩
  obtain ⟨evs, b', hdrained, hrun⟩ := exec_opDrain_spec s
  obtain ⟨hcount, hle⟩ := drained_result_count hdrained
  exact ⟨_, evs, hrun, rfl, hcount, by omega⟩

/-- Settles O10: `drained_mark_mark` on the events of the second marker and what follows it. -/
theorem adjacentMarkersGiveTooShort : Obligations.AdjacentMarkersGiveTooShort := by
  intro s rest hbuf
  refine exec_opDrain_of_drained fun evs b' hd => ?_
  rw [hbuf]
  exact drained_mark_mark hd

/-- Settles O11: `drained_orphan_append` on the events of the bytes from the first marker on. -/
theorem orphanBytesStayOutOfPackets : Obligations.OrphanBytesStayOutOfPackets := by
  intro s orphan rest hne hbuf hfirst
  have horphan : orphanEvents orphan = [.orphan orphan] := if_neg hne
  rw [hbuf] at hfirst
  refine exec_opDrain_of_drained fun evs b' hd => ?_
  rw [hbuf, ← horphan]
  exact drained_orphan_append (noMarker_of_firstMarker hfirst) hd

/-- Settles O13: the first push leaves the block idle, and FEED of the second chunk finds both in BUF. -/
theorem severalPushesOneDrain : Obligations.SeveralPushesOneDrain := by
  intro s a b hidle hcap hmax
  have hs : IdleUnbounded s := ⟨hidle, hcap, hmax⟩
  obtain ⟨evs, b', hd⟩ := exists_drained s.cfg (s.buf ++ (a ++ b))
  refine ⟨_, ?_, feed_of_drained hs hd⟩
  rw [← List.append_assoc] at hd
  rw [performs_cons _ (exec_opPush_of_idleUnbounded hs a)]
  exact feed_of_drained (s := s.withBuf (s.buf ++ a)) hs hd

/-- Settles O12: the first drain finds no marker and leaves all to the second, or it takes what holds a marker and
leaves nothing, the second then beginning with a marker (`drained_append`). A cut right after the only marker does
change the events. -/
theorem chunkCutsThatChangeNothing : Obligations.ChunkCutsThatChangeNothing := by
  refine ⟨fun s a b hidle hcap hmax hcut => ?_, mark, [0], _, _, rfl, rfl, by decide⟩
  have hs : IdleUnbounded s := ⟨hidle, hcap, hmax⟩
  have hs' : IdleUnbounded s.release := ⟨rfl, hcap, hmax⟩
  by_cases hno : NoMarker (s.buf ++ a)
  · obtain ⟨evs, b', hd⟩ := exists_drained s.cfg (s.buf ++ (a ++ b))
    refine ⟨_, ?_, feed_of_drained hs hd⟩
    rw [← List.append_assoc] at hd
    refine (performs_append [.opPush b, .opDrain] (feed_of_drained hs (.idle hno))).trans ?_
    rw [List.append_nil]
    exact feed_of_drained (s := { s.release with buf := s.buf ++ a, evq := s.evq }) hs' hd
  · obtain ⟨rest, rfl⟩ := hcut.resolve_left hno
    obtain ⟨evs, b1, hd⟩ := exists_drained s.cfg (s.buf ++ a)
    obtain ⟨evs', b2, hd'⟩ := exists_drained s.cfg (mark ++ rest)
    have hboth := drained_append hd hno hd'
    obtain rfl := drained_remaining_eq_nil hd hno
    rw [List.append_assoc] at hboth
    refine ⟨_, ?_, feed_of_drained hs hboth⟩
    refine (performs_append [.opPush (mark ++ rest), .opDrain] (feed_of_drained hs hd)).trans ?_
    rw [← List.append_assoc]
    exact feed_of_drained (s := { s.release with buf := [], evq := s.evq ++ evs }) hs' hd'

/-- Settles O14: the first drain takes the 0x55 with the last frame's body, and nothing before the 0xAA remains. -/
theorem splitMarkerIsLost : Obligations.SplitMarkerIsLost := by
  intro s a b hidle hcap hmax hmark hno
  have hs : IdleUnbounded s := ⟨hidle, hcap, hmax⟩
  have hs' : IdleUnbounded s.release := ⟨rfl, hcap, hmax⟩
  obtain ⟨evs, b', hd⟩ := exists_drained s.cfg (s.buf ++ (a ++ [0x55]))
  have hmark' : ¬ NoMarker (s.buf ++ (a ++ [0x55])) := by
    rw [← List.append_assoc]
    exact fun hall => hmark (noMarker_of_append_left hall)
  obtain rfl := drained_remaining_eq_nil hd hmark'
  have hsecond := feed_of_drained (s := { s.release with buf := [], evq := s.evq ++ evs }) hs' (.idle hno)
  exact ⟨_, _, feed_of_drained hs hd, rfl, hsecond, rfl, List.append_nil _⟩

end Sys2Proof.Machine
end

section
/-! PROOFS. The statements about the whole block: the power-up state (R37), what each instruction leaves of EVQ (R34)
and of the host's requests (R61), that no operation faults (R200) and which pushes are refused (R64), what one step
runs (R97), and the invariant between operations. First that every instruction but OP.PUSH completes, what OP.PUSH
can answer and what a step can be; then that the kinds of instruction keep the invariant; then the statements. -/

namespace Sys2Proof.Machine

open Sys2Proof.Contract

/-! What an instruction answers. -/

theorem exists_exec_standAlone_eq_next {i : Instr} (hi : StandAlone i) (s : State) : ∃ u, exec i s = .next u := by
  obtain ⟨v, hrun⟩ := exec_standAlone hi s
  exact ⟨_, hrun s.buf⟩

theorem exists_exec_eq_next {i : Instr} (hi : ∀ chunk, i ≠ .opPush chunk) (s : State) :
    ∃ u, exec i s = .next u := by
  cases i with
  | opPush chunk => exact absurd rfl (hi chunk)
  | opReset => exact ⟨_, exec_opReset s⟩
  | opDrain =>
    obtain ⟨evs, b', -, hrun⟩ := exec_opDrain_spec s
    exact ⟨_, hrun⟩
  | _ => exact exists_exec_standAlone_eq_next (by trivial) s

theorem exec_opPush_ne_fault (chunk : List Byte) (s : State) (f : Fault) : exec (.opPush chunk) s ≠ .fault f := by
  simp only [exec, execOpPush]
  split_ifs <;> exact nofun

theorem exec_opPush_of_drainInProgress {s : State} (h : s.fe ≠ {}) (chunk : List Byte) :
    exec (.opPush chunk) s = .refused .pushDuringDrain := by
  simp only [exec, execOpPush, if_pos ((drainInProgress_iff s).2 h)]

theorem exec_opPush_of_chunkTooLong {s : State} {chunk : List Byte} {m : Nat} (hidle : s.fe = {})
    (hmax : s.cfg.chunkMax = some m) (hlong : m < chunk.length) :
    exec (.opPush chunk) s = .refused .chunkTooLong := by
  have hdrain : ¬ drainInProgress s = true := fun h => (drainInProgress_iff s).1 h hidle
  have hover : within chunk.length s.cfg.chunkMax = false := by
    rw [hmax]
    exact decide_eq_false (Nat.not_le.2 hlong)
  simp [exec, execOpPush, hdrain, hover]

/-- A push that completes stays within BUF_CAP (10_state.md R22). -/
theorem withinCap_of_exec_opPush {chunk : List Byte} {s u : State} (h : exec (.opPush chunk) s = .next u) :
    WithinCap u := by
  obtain rfl := exec_opPush_next h
  simp only [exec, execOpPush] at h
  split_ifs at h with hdrain hmax hcap
  have hfits := (within_iff _ _).1 (by simpa using hcap)
  simpa [WithinCap] using hfits

/-! One step. -/

theorem step_of_decode {s : State} {r : Request} {rest : List Request} {i : Instr} (hpending : s.pending = r :: rest)
    (hdecode : decode r = .ok i) : step s = exec i (s.withPending rest) := by
  simp only [step, hpending, hdecode]

theorem step_of_reject {s : State} {r : Request} {rest : List Request} {e : Reject} (hpending : s.pending = r :: rest)
    (hdecode : decode r = .error e) : step s = .refused (refusalOf e) := by
  simp only [step, hpending, hdecode]

theorem step_of_idle {s : State} (hpending : s.pending = []) : step s = .next s := by
  simp only [step, hpending]

/-- A step that completes is idle or runs one instruction, the oldest request taken off the queue. -/
theorem step_next_cases {s u : State} (h : step s = .next u) :
    u = s ∨ ∃ i rest, exec i (s.withPending rest) = .next u := by
  cases hpending : s.pending with
  | nil => exact .inl (Host.Outcome.next.inj (h.symm.trans (step_of_idle hpending)))
  | cons r rest =>
    cases hdecode : decode r with
    | ok i => exact .inr ⟨i, rest, (step_of_decode hpending hdecode).symm.trans h⟩
    | error e =>
      rw [step_of_reject hpending hdecode] at h
      cases h

/-! The invariant. -/

/-- The events of one DRAIN_STEP: bytes before the first marker, and the result of a body that ends before the next
one (43_frame_extractor.md R176, R181). -/
theorem eventOk_of_mem_stepEvents {cfg : Config} {orphan body : List Byte} {r : PacketResult} {e : Event}
    (hno : NoMarker orphan) (hn : NoMarker body) (hr : FrameResult cfg (mark ++ body) r)
    (he : e ∈ orphanEvents orphan ++ [resultEvent r]) : EventOk cfg e := by
  obtain horphan | hresult := List.mem_append.1 he
  · unfold orphanEvents at horphan
    split at horphan
    · exact absurd horphan List.not_mem_nil
    · next hne =>
      obtain rfl := List.mem_singleton.1 horphan
      exact ⟨hne, hno⟩
  · obtain rfl := List.mem_singleton.1 hresult
    cases r with
    | packet p => exact ⟨body, hn, hr⟩
    | err e => exact ⟨body, hn, hr⟩

/-- Every event a drain appends is one the invariant allows: by induction on the drain. -/
theorem eventOk_of_mem_drained {cfg : Config} {b b' : List Byte} {evs : List Event} (h : Drained cfg b evs b')
    {e : Event} (he : e ∈ evs) : EventOk cfg e := by
  induction h with
  | idle => exact absurd he List.not_mem_nil
  | eager hm hn hr => exact eventOk_of_mem_stepEvents (noMarker_of_firstMarker hm) hn hr he
  | bounded hm hn hr _ ih =>
    rw [List.append_assoc] at hm
    obtain hstep | hlater := List.mem_append.1 he
    · exact eventOk_of_mem_stepEvents (noMarker_of_firstMarker hm) (firstMarker_append_iff.1 hn).1 hr hstep
    · exact ih hlater

/-- What an instruction does to an `Inv` state: OP.PUSH is checked against BUF_CAP, OP.DRAIN shortens BUF and appends
allowed events, OP.RESET empties both, and a stand-alone call touches neither. -/
theorem exec_keeps_inv {i : Instr} {s u : State} (hinv : Inv s) (h : exec i s = .next u) : Inv u := by
  obtain ⟨hquiet, hcap, hevents⟩ := hinv
  cases i with
  | opPush chunk =>
    have hfits := withinCap_of_exec_opPush h
    obtain rfl := exec_opPush_next h
    exact ⟨hquiet, hfits, hevents⟩
  | opDrain =>
    obtain ⟨evs, b', hdrained, rfl⟩ := exec_opDrain_next h
    refine ⟨⟨rfl, rfl, rfl, rfl⟩, fun cap hc => ?_, fun e he => ?_⟩
    · exact (drained_suffix hdrained).length_le.trans (hcap cap hc)
    · exact (List.mem_append.1 he).elim (hevents e) (eventOk_of_mem_drained hdrained)
  | opReset =>
    obtain rfl := exec_opReset_next h
    exact ⟨⟨rfl, rfl, rfl, rfl⟩, fun cap _ => Nat.zero_le cap, fun e he => absurd he List.not_mem_nil⟩
  | _ =>
    obtain ⟨v, rfl, -⟩ := exec_standAlone_next (by trivial) h
    exact ⟨⟨rfl, rfl, rfl, rfl⟩, hcap, hevents⟩

/-! The statements. -/

/-- Settles O22: the queue is no part of the invariant, and no instruction breaks it. -/
theorem stepKeepsTheInvariant : Obligations.StepKeepsTheInvariant := by
  intro s u hinv h
  obtain rfl | ⟨i, rest, hrun⟩ := step_next_cases h
  · exact hinv
  · have hinv' : Inv (s.withPending rest) := hinv
    exact exec_keeps_inv hinv' hrun

/-- Settles O23: an unbounded BUF_CAP and no event. -/
theorem resetMeetsTheInvariant : Obligations.ResetMeetsTheInvariant :=
  ⟨⟨rfl, rfl, rfl, rfl⟩, fun cap _ => Nat.zero_le cap, fun _ he => absurd he List.not_mem_nil⟩

/-- Settles O2: the writes of `exec_opReset` leave the two named fields alone. -/
theorem resetFrame : Obligations.ResetFrame := exec_opReset

/-- Settles O3: the state after reset takes `defaultConfig`. -/
theorem resetParameters : Obligations.ResetParameters := rfl

/-- Settles O5: the first two guards of OP.PUSH. -/
theorem pushRefusedDuringDrainOrTooLong : Obligations.PushRefusedDuringDrainOrTooLong := fun _ chunk =>
  ⟨fun hdrain => exec_opPush_of_drainInProgress hdrain chunk, fun _ => exec_opPush_of_chunkTooLong⟩

/-- Settles O16: only OP.RESET and OP.DRAIN write EVQ. -/
theorem eventsAreOnlyAppended : Obligations.EventsAreOnlyAppended := by
  intro i s u h
  cases i with
  | opPush chunk => rw [exec_opPush_next h]; rfl
  | opDrain => obtain ⟨evs, b', -, rfl⟩ := exec_opDrain_next h; exact ⟨evs, rfl⟩
  | opReset => rw [exec_opReset_next h]; rfl
  | _ => obtain ⟨v, rfl, -⟩ := exec_standAlone_next (by trivial) h; rfl

/-- Settles O19: an instruction is OP.PUSH, which only refuses, or it completes. -/
theorem everyOperationIsTotal : Obligations.EveryOperationIsTotal := by
  refine ⟨fun i s f hfault => ?_, fun i s hi => exists_exec_eq_next hi s, fun chunk s hidle hcap hmax => ?_⟩
  · by_cases hi : ∀ chunk, i ≠ .opPush chunk
    · obtain ⟨u, hrun⟩ := exists_exec_eq_next hi s
      cases hrun.symm.trans hfault
    · obtain ⟨chunk, rfl⟩ := not_forall_not.1 hi
      exact exec_opPush_ne_fault chunk s f hfault
  · exact ⟨_, exec_opPush_of_idleUnbounded ⟨hidle, hcap, hmax⟩ chunk⟩

/-- Settles O20: a decoded request, none, and the reserved code, which the decoder rejects. -/
theorem stepRunsTheDecodedInstruction : Obligations.StepRunsTheDecodedInstruction :=
  ⟨fun _ _ _ _ hpending hdecode => step_of_decode hpending hdecode, fun _ => step_of_idle,
    fun _ _ _ hpending => step_of_reject hpending rfl⟩

/-- Settles O21: no kind of instruction writes the queue. -/
theorem requestsAreTheHostsAlone : Obligations.RequestsAreTheHostsAlone := by
  intro i s u h
  cases i with
  | opPush chunk => rw [exec_opPush_next h]; rfl
  | opDrain => obtain ⟨evs, b', -, rfl⟩ := exec_opDrain_next h; rfl
  | opReset => rw [exec_opReset_next h]; rfl
  | _ => obtain ⟨v, rfl, -⟩ := exec_standAlone_next (by trivial) h; rfl

end Sys2Proof.Machine
end
